-- ==== Sys2Proof/Word.lean ====
section
/-! DEFINITION. The machine word (spec 00_scope.md R11, R12, R13). -/

namespace Sys2Proof

/-- One memory cell's content: a 64-bit two's-complement word. Its value is `BitVec.toInt` (R11, R12, R17). -/
abbrev Word := BitVec 64

end Sys2Proof
end

