-- ==== Sys2Proof/Config.lean ====
section
/-! DEFINITION. The fixed implementation values and the named parameters of spec 00_scope.md R11.
The spec leaves no value open (40_execution_cycle.md R147), so there is no free value here. -/

namespace Sys2Proof

/-- `MAX_ADDR` = 2^63 − 1, the highest address (R11, R71). -/
def maxAddr : Nat := 9223372036854775807

/-- `OVF_POLICY`: what an add or a multiply does when its exact result does not fit a word (R11, R161). -/
inductive OvfPolicy where
  | wrap
  | fault
  deriving DecidableEq, Repr

/-- The parameters fixed when an engine is built (R11, R44). `outCap = none` is `UNBOUNDED`. -/
structure Params where
  ovfPolicy : OvfPolicy
  outCap    : Option Nat
  deriving DecidableEq, Repr

/-- The spec's own choice: WRAP and UNBOUNDED (R11). -/
def Params.default : Params := { ovfPolicy := .wrap, outCap := none }

/-- `OUT_CAP` is a positive integer or `UNBOUNDED` (R11). -/
def Params.wf (p : Params) : Bool :=
  match p.outCap with
  | none => true
  | some n => decide (0 < n)

end Sys2Proof
end

