-- ==== Sys2Proof/Syntax.lean ====
section
/-! DEFINITION. Instructions as syntax: the ten rows of spec/opcode_table.json (30_encoding.md R104) with their
operands as they stand in memory (mode and raw word), before any address is resolved. -/

namespace Sys2Proof

/-- The three addressing modes, mode digits 0, 1, 2 (30_encoding.md R106, R107, R108). -/
inductive Mode where
  | absolute
  | immediate
  | relative
  deriving DecidableEq, Repr

/-- An operand: its mode and its raw operand word (R105). -/
structure Operand where
  mode : Mode
  raw  : Word
  deriving DecidableEq, Repr

/-- The opcode map's ten entries (R104). -/
inductive Opcode where
  | add
  | multiply
  | input
  | output
  | jumpIfTrue
  | jumpIfFalse
  | lessThan
  | equals
  | adjustRelativeBase
  | halt
  deriving DecidableEq, Repr

/-- The operand count of an opcode (R104, column arity). -/
def Opcode.arity : Opcode → Nat
  | .add | .multiply | .lessThan | .equals => 3
  | .jumpIfTrue | .jumpIfFalse => 2
  | .input | .output | .adjustRelativeBase => 1
  | .halt => 0

/-- The encoded length in words: arity + 1 (R101, R104). -/
def Opcode.length (op : Opcode) : Nat := op.arity + 1

/-- The operand an opcode writes, if any (R104, column write position). -/
def Opcode.writePosition : Opcode → Option Nat
  | .add | .multiply | .lessThan | .equals => some 3
  | .input => some 1
  | .output | .jumpIfTrue | .jumpIfFalse | .adjustRelativeBase | .halt => none

/-- An instruction, one constructor per row of the opcode table. `a`, `b`, `c` are operands 1, 2, 3 (R104). -/
inductive Instr where
  | add (a b c : Operand)
  | multiply (a b c : Operand)
  | input (a : Operand)
  | output (a : Operand)
  | jumpIfTrue (a b : Operand)
  | jumpIfFalse (a b : Operand)
  | lessThan (a b c : Operand)
  | equals (a b c : Operand)
  | adjustRelativeBase (a : Operand)
  | halt
  deriving DecidableEq, Repr

/-- The opcode of an instruction. -/
def Instr.opcode : Instr → Opcode
  | .add _ _ _ => .add
  | .multiply _ _ _ => .multiply
  | .input _ => .input
  | .output _ => .output
  | .jumpIfTrue _ _ => .jumpIfTrue
  | .jumpIfFalse _ _ => .jumpIfFalse
  | .lessThan _ _ _ => .lessThan
  | .equals _ _ _ => .equals
  | .adjustRelativeBase _ => .adjustRelativeBase
  | .halt => .halt

/-- The operands of an instruction, in order. -/
def Instr.operands : Instr → List Operand
  | .add a b c | .multiply a b c | .lessThan a b c | .equals a b c => [a, b, c]
  | .jumpIfTrue a b | .jumpIfFalse a b => [a, b]
  | .input a | .output a | .adjustRelativeBase a => [a]
  | .halt => []

/-- The encoded length of an instruction in words (R101). -/
def Instr.length (i : Instr) : Nat := i.opcode.length

end Sys2Proof
end

