-- ==== Sys2Proof/WellFormed.lean ====
section
/-! DEFINITION. Which instructions have an encoding: a write operand is never immediate (30_encoding.md R110). -/

namespace Sys2Proof

/-- An operand that may be written: Absolute or RelativeToBase (R110). -/
def Operand.writable (o : Operand) : Bool :=
  match o.mode with
  | .immediate => false
  | .absolute | .relative => true

/-- The write position of the instruction, where it has one, is not immediate (R104, R110). -/
def Instr.wf : Instr → Bool
  | .add _ _ c | .multiply _ _ c | .lessThan _ _ c | .equals _ _ c => c.writable
  | .input a => a.writable
  | .output _ | .jumpIfTrue _ _ | .jumpIfFalse _ _ | .adjustRelativeBase _ | .halt => true

end Sys2Proof
end

