-- ==== Sys2Proof/Decode.lean ====
section
/-! DEFINITION. The decoder of spec 30_encoding.md R100 to R120, total on any words, rejecting by name; after it the
encoder of R120, and the pseudo-instructions of R123. Operand addresses are resolved later, by the machine
(Machine/Operands.lean), since they need `rb`; the order of the checks of R115 is kept (log 8). -/

namespace Sys2Proof

/-- What an opcode word can be rejected for (R115, R118; 60_exceptions.md R222, R223). -/
inductive HeadFault where
  /-- negative word, or low two digits not a legal opcode (R117, R118) -/
  | invalidOpcode
  /-- mode digit 3 to 9 at an operand position (R109) -/
  | invalidMode
  /-- non-zero digit of weight 10^5 or more, or at a position beyond the arity (R113, R114) -/
  | reservedDigit
  /-- mode digit 1 at the write position (R110) -/
  | writeTarget
  deriving DecidableEq, Repr

/-- A decoded opcode word: the opcode and the modes of operands 1, 2, 3 (absent operands: Absolute) (R100). -/
structure Head where
  op : Opcode
  m1 : Mode
  m2 : Mode
  m3 : Mode
  deriving DecidableEq, Repr

/-- `digit_k(w)`, the decimal digit of weight 10^k (00_scope.md R12). -/
def digit (k w : Nat) : Nat := w / 10 ^ k % 10

/-- The opcode map of R104 on the low two decimal digits. -/
def Opcode.ofCode : Nat → Option Opcode
  | 1 => some .add
  | 2 => some .multiply
  | 3 => some .input
  | 4 => some .output
  | 5 => some .jumpIfTrue
  | 6 => some .jumpIfFalse
  | 7 => some .lessThan
  | 8 => some .equals
  | 9 => some .adjustRelativeBase
  | 99 => some .halt
  | _ => none

/-- The mode of position k of an opcode of arity n from its mode digit d (R106 to R109, R114). -/
def decodeMode (n k d : Nat) : Except HeadFault Mode :=
  if k ≤ n then
    match d with
    | 0 => .ok .absolute
    | 1 => .ok .immediate
    | 2 => .ok .relative
    | _ => .error .invalidMode
  else
    match d with
    | 0 => .ok .absolute
    | _ => .error .reservedDigit

/-- The mode at operand position k of a decoded opcode word. -/
def Head.modeAt (h : Head) : Nat → Mode
  | 1 => h.m1
  | 2 => h.m2
  | _ => h.m3

/-- The write position, where there is one, is not immediate (R110). -/
def Head.writeOk (h : Head) : Bool :=
  match h.op.writePosition with
  | none => true
  | some k => decide (h.modeAt k ≠ .immediate)

/-- The opcode word part of the decode algorithm, its checks in the order of R115. -/
def decodeHead (w : Word) : Except HeadFault Head :=
  if w.toInt < 0 then .error .invalidOpcode
  else
    match Opcode.ofCode (w.toNat % 100) with
    | none => .error .invalidOpcode
    | some op =>
      if 100000 ≤ w.toNat then .error .reservedDigit
      else
        match decodeMode op.arity 1 (digit 2 w.toNat) with
        | .error e => .error e
        | .ok m1 =>
          match decodeMode op.arity 2 (digit 3 w.toNat) with
          | .error e => .error e
          | .ok m2 =>
            match decodeMode op.arity 3 (digit 4 w.toNat) with
            | .error e => .error e
            | .ok m3 =>
              if Head.writeOk ⟨op, m1, m2, m3⟩ then .ok ⟨op, m1, m2, m3⟩
              else .error .writeTarget

/-- The instruction of a decoded opcode word; `raw k` is operand word k (R105, R115). -/
def Head.instr (h : Head) (raw : Nat → Word) : Instr :=
  match h.op with
  | .add => .add ⟨h.m1, raw 1⟩ ⟨h.m2, raw 2⟩ ⟨h.m3, raw 3⟩
  | .multiply => .multiply ⟨h.m1, raw 1⟩ ⟨h.m2, raw 2⟩ ⟨h.m3, raw 3⟩
  | .input => .input ⟨h.m1, raw 1⟩
  | .output => .output ⟨h.m1, raw 1⟩
  | .jumpIfTrue => .jumpIfTrue ⟨h.m1, raw 1⟩ ⟨h.m2, raw 2⟩
  | .jumpIfFalse => .jumpIfFalse ⟨h.m1, raw 1⟩ ⟨h.m2, raw 2⟩
  | .lessThan => .lessThan ⟨h.m1, raw 1⟩ ⟨h.m2, raw 2⟩ ⟨h.m3, raw 3⟩
  | .equals => .equals ⟨h.m1, raw 1⟩ ⟨h.m2, raw 2⟩ ⟨h.m3, raw 3⟩
  | .adjustRelativeBase => .adjustRelativeBase ⟨h.m1, raw 1⟩
  | .halt => .halt

/-- Why a list of words holds no instruction at its head. -/
inductive Reject where
  /-- the opcode word is illegal or reserved -/
  | illegal (e : HeadFault)
  /-- the list ends before the instruction does (no case of the engine, whose memory never ends: log 12) -/
  | tooShort
  deriving DecidableEq, Repr

/-- The instruction at the head of a list of words, and the words after it (R101, R103, R115). -/
def decode (ws : List Word) : Except Reject (Instr × List Word) :=
  match ws with
  | [] => .error .tooShort
  | w :: rest =>
    match decodeHead w with
    | .error e => .error (.illegal e)
    | .ok h =>
      if rest.length < h.op.arity then .error .tooShort
      else .ok (h.instr (fun k => (w :: rest).getD k 0#64), rest.drop h.op.arity)

/-- The words of an instruction whose bits are `w`, numbered from bit 0 of the first word: word k is bits
64k+63..64k; bits at `nbits` and above are 0; the longest instruction has 4 words (R101; log 12). -/
def tableWords (nbits w : Nat) : List Word :=
  let v := w % 2 ^ nbits
  [BitVec.ofNat 64 v, BitVec.ofNat 64 (v / 2 ^ 64), BitVec.ofNat 64 (v / 2 ^ 128), BitVec.ofNat 64 (v / 2 ^ 192)]

/-- The instruction this decoder reads from an instruction whose bits are `w` (bits at `nbits` and above 0). -/
def decodeTableWord (nbits w : Nat) : Option Instr :=
  match decode (tableWords nbits w) with
  | .ok (i, _) => some i
  | .error _ => none

/-- The low two digits of an opcode (R104). -/
def Opcode.code : Opcode → Nat
  | .add => 1
  | .multiply => 2
  | .input => 3
  | .output => 4
  | .jumpIfTrue => 5
  | .jumpIfFalse => 6
  | .lessThan => 7
  | .equals => 8
  | .adjustRelativeBase => 9
  | .halt => 99

/-- The mode digit of a mode (R106, R107, R108). -/
def Mode.digit : Mode → Nat
  | .absolute => 0
  | .immediate => 1
  | .relative => 2

/-- `enc(op, m) = op + 100·m1 + 1000·m2 + 10000·m3` (R120). -/
def encodeHead (h : Head) : Word :=
  BitVec.ofNat 64 (h.op.code + 100 * h.m1.digit + 1000 * h.m2.digit + 10000 * h.m3.digit)

/-- The opcode word's fields of an instruction, the modes of absent operands at 0 (R120). -/
def Instr.head : Instr → Head
  | .add a b c => ⟨.add, a.mode, b.mode, c.mode⟩
  | .multiply a b c => ⟨.multiply, a.mode, b.mode, c.mode⟩
  | .input a => ⟨.input, a.mode, .absolute, .absolute⟩
  | .output a => ⟨.output, a.mode, .absolute, .absolute⟩
  | .jumpIfTrue a b => ⟨.jumpIfTrue, a.mode, b.mode, .absolute⟩
  | .jumpIfFalse a b => ⟨.jumpIfFalse, a.mode, b.mode, .absolute⟩
  | .lessThan a b c => ⟨.lessThan, a.mode, b.mode, c.mode⟩
  | .equals a b c => ⟨.equals, a.mode, b.mode, c.mode⟩
  | .adjustRelativeBase a => ⟨.adjustRelativeBase, a.mode, .absolute, .absolute⟩
  | .halt => ⟨.halt, .absolute, .absolute, .absolute⟩

/-- The words of an instruction: its opcode word, then the raw word of each operand (R101, R120). -/
def encode (i : Instr) : List Word := encodeHead i.head :: i.operands.map Operand.raw

/-- Operand notations `#v`, `[v]`, `[rb+v]` of R122. -/
def Operand.imm (v : Word) : Operand := ⟨.immediate, v⟩
def Operand.abs (v : Word) : Operand := ⟨.absolute, v⟩
def Operand.rel (v : Word) : Operand := ⟨.relative, v⟩

/-- `Mov s, d` (R123). -/
def pseudoMov (s d : Operand) : Instr := .add s (.imm 0#64) d
/-- `Jmp t` (R123). -/
def pseudoJmp (t : Operand) : Instr := .jumpIfTrue (.imm 1#64) t
/-- `Nop` (R123). -/
def pseudoNop : Instr := .jumpIfFalse (.imm 1#64) (.imm 0#64)
/-- `Clr d` (R123). -/
def pseudoClr (d : Operand) : Instr := .multiply (.imm 0#64) (.imm 0#64) d

end Sys2Proof
end

