-- ==== Sys2Proof/Machine/State.lean ====
section
/-! DEFINITION. The state of one engine (spec 10_state.md R30 to R45), its fault causes, the reasons a step is not
taken, and the state after reset (70_reset_and_hazards.md R260). -/

namespace Sys2Proof.Machine

/-- Memory (20_memory.md R70): the cells that do not read 0, as (address, word) pairs with strictly rising addresses.
An address that is not listed reads 0. A cell is one whole word; the engine has no bytes (R75; log 1). -/
abbrev Memory := List (Nat × Word)

/-- Addresses strictly rise. -/
def Memory.sorted : Memory → Bool
  | [] => true
  | [_] => true
  | (a, _) :: (b, w) :: m => decide (a < b) && Memory.sorted ((b, w) :: m)

/-- The canonical form: addresses strictly rise, each is in 0..`MAX_ADDR`, and no cell is listed with the word an
unlisted address reads as. -/
def Memory.wf (m : Memory) : Bool :=
  m.sorted && m.all (fun c => decide (c.1 ≤ maxAddr) && decide (c.2 ≠ 0#64))

/-- The execution state (10_state.md R36). -/
inductive RunState where
  | running
  | waitingForInput
  | halted
  | faulted
  deriving DecidableEq, Repr

/-- Fault causes (60_exceptions.md R221), in the order of their codes 0 to 8. -/
inductive FaultCause where
  | none
  | invalidOpcode
  | invalidMode
  | reservedDigit
  | writeTarget
  | address
  | inputDisconnected
  | outputDisconnected
  | overflow
  deriving DecidableEq, Repr

/-- What a `raise C(info)` carries (60_exceptions.md R229): the spec's own faults. Raising one is a NEXT state, in
`RunState.faulted`; it is not an outcome `fault` of the model (log 4). -/
inductive Trap where
  /-- a fault of the opcode word (R222, R223) -/
  | head (e : HeadFault)
  /-- an address outside 0..`MAX_ADDR`, computed exactly (R224) -/
  | address (ea : Int)
  /-- Input found `InQ` empty and the input closed (R225) -/
  | inputDisconnected
  /-- Output found the output disconnected (R225) -/
  | outputDisconnected
  /-- an add or a multiply does not fit under `OVF_POLICY = FAULT` (R226) -/
  | overflow
  deriving DecidableEq, Repr

/-- Why the engine has NO step (40_execution_cycle.md R140, R146). The model answers it with the outcome `fault`, and
the state the step was asked of stays as it is (log 3). Each is safe: the engine does nothing in these states. -/
inductive Fault where
  /-- `step` in HALTED, which is final (43_control.md R208). Safe. -/
  | engineHalted
  /-- `step` in FAULTED, which is final (60_exceptions.md R230). Safe. -/
  | engineFaulted
  /-- `step` in WAITING_FOR_INPUT with `InQ` empty and the input open (42_io.md R181); a host move may enable it. Safe. -/
  | inputBlocked
  /-- Output with `OutQ` full and the output connected (42_io.md R184); a host move may enable it. Safe. -/
  | outputBlocked
  deriving DecidableEq, Repr

/-- Refusals. No instruction of this machine is refused. -/
inductive Refusal where
  /-- an arm of `exec` whose instruction has no meaning yet; raised by no arm of this model. Safe. -/
  | notModelled (mnemonic : String)
  deriving DecidableEq, Repr

/-- The state of one engine (10_state.md R30). `waiting` is `State.waiting`, computed from `state` (R37; log 5).
`params` is the model's: the parameters fixed when the engine is built (R44; log 2). -/
structure State where
  /-- `mem` (20_memory.md R70) -/
  mem        : Memory
  /-- `pc`, read as signed (R32) -/
  pc         : Word
  /-- `rb`, read as signed (R33) -/
  rb         : Word
  /-- `state` (R36) -/
  state      : RunState
  /-- `in_target` (R38) -/
  inTarget   : Nat
  /-- `fault_cause` (R39) -/
  faultCause : FaultCause
  /-- `fault_pc` (R39) -/
  faultPc    : Word
  /-- `fault_word` (R39) -/
  faultWord  : Word
  /-- `fault_addr`, 128-bit two's complement (R39) -/
  faultAddr  : BitVec 128
  /-- `InQ`, oldest first (R40) -/
  inQ        : List Word
  /-- `in_closed` (R40) -/
  inClosed   : Bool
  /-- `OutQ`, oldest first (R41) -/
  outQ       : List Word
  /-- `out_closed` (R41) -/
  outClosed  : Bool
  /-- `out_disc` (R41) -/
  outDisc    : Bool
  /-- `OVF_POLICY` and `OUT_CAP` (R44) -/
  params     : Params
  deriving DecidableEq, Repr

/-- The state after reset (R260): the engine built from the empty image with the spec's own parameters (log 7). -/
def State.reset : State :=
  { mem := [], pc := 0#64, rb := 0#64, state := .running, inTarget := 0
    faultCause := .none, faultPc := 0#64, faultWord := 0#64, faultAddr := 0#128
    inQ := [], inClosed := false, outQ := [], outClosed := false, outDisc := false
    params := Params.default }

end Sys2Proof.Machine
end

