-- ==== Sys2Proof/Machine/Flags.lean ====
section
/-! DEFINITION. The integer ALU (spec 10_state.md R50, 41_arithmetic.md R160 to R162) and its `ovf` bit. The engine has
no flags (R34): `ovf` is never stored. -/

namespace Sys2Proof.Machine

/-- `wrap64(v)`: the word congruent to v modulo 2^64 (00_scope.md R13). -/
def wrap64 (v : Int) : Word := BitVec.ofInt 64 v

/-- `fits64(v)`: v is in `W` (R13). -/
def fits64 (v : Int) : Bool := decide (-9223372036854775808 ≤ v) && decide (v ≤ 9223372036854775807)

/-- The ALU's operations (R50). -/
inductive AluOp where
  | add
  | mul
  | lt
  | eq
  | ztest
  deriving DecidableEq, Repr

/-- `add64` (R160): the wrapped sum and whether the exact sum does not fit. -/
def add64 (a b : Word) : Word × Bool :=
  let s := a.toInt + b.toInt
  (wrap64 s, !fits64 s)

/-- `mul64` (R160): the wrapped product and whether the exact product does not fit. -/
def mul64 (a b : Word) : Word × Bool :=
  let p := a.toInt * b.toInt
  (wrap64 p, !fits64 p)

/-- 1 or 0, the result words of LT, EQ and ZTEST (R50). -/
def bitWord (b : Bool) : Word := if b then 1#64 else 0#64

/-- The ALU: a result word and `ovf` (R50). LT compares as signed (R162); ZTEST ignores `b`. -/
def alu (op : AluOp) (a b : Word) : Word × Bool :=
  match op with
  | .add => add64 a b
  | .mul => mul64 a b
  | .lt => (bitWord (decide (a.toInt < b.toInt)), false)
  | .eq => (bitWord (decide (a = b)), false)
  | .ztest => (bitWord (decide (a ≠ 0#64)), false)

/-- The ALU under the overflow policy: OVERFLOW where `ovf` is 1 under FAULT, else the result word (R161). -/
def aluUnder (p : OvfPolicy) (op : AluOp) (a b : Word) : Except Trap Word :=
  match alu op a b with
  | (r, ovf) => if ovf && decide (p = .fault) then .error .overflow else .ok r

end Sys2Proof.Machine
end

