-- ==== Sys2Proof/Machine/Ops.lean ====
section
/-! DEFINITION. The named operations over memory, registers and queues, and the entry into a fault. -/

namespace Sys2Proof.Machine

/-- `MemRead(a)` (20_memory.md R72): the word listed at a, else 0. -/
def Memory.read : Memory → Nat → Word
  | [], _ => 0#64
  | (b, w) :: m, a => if a = b then w else Memory.read m a

/-- `MemWrite(a, v)` (R73), keeping the canonical form: writing 0 takes the cell off the list. -/
def Memory.write : Memory → Nat → Word → Memory
  | [], a, v => if v = 0#64 then [] else [(a, v)]
  | (b, w) :: m, a, v =>
    if a < b then (if v = 0#64 then (b, w) :: m else (a, v) :: (b, w) :: m)
    else if a = b then (if v = 0#64 then m else (a, v) :: m)
    else (b, w) :: Memory.write m a v

/-- The image's words at `a`, `a + 1`, …, and 0 elsewhere (70_reset_and_hazards.md R261). -/
def Memory.ofImage : Nat → List Word → Memory
  | _, [] => []
  | a, v :: vs => if v = 0#64 then Memory.ofImage (a + 1) vs else (a, v) :: Memory.ofImage (a + 1) vs

/-- The list of words written at `a`, `a + 1`, …. -/
def Memory.writeAll : Memory → Nat → List Word → Memory
  | m, _, [] => m
  | m, a, v :: vs => Memory.writeAll (m.write a v) (a + 1) vs

/-- An exact address lies in 0..`MAX_ADDR` (30_encoding.md R111, R116). -/
def inRange (a : Int) : Bool := decide (0 ≤ a) && decide (a ≤ maxAddr)

/-- `waiting`, the blocking-wait signal (10_state.md R37). -/
def State.waiting (s : State) : Bool := decide (s.state = .waitingForInput)

/-- The code of a cause (60_exceptions.md R221). -/
def FaultCause.code : FaultCause → Nat
  | .none => 0
  | .invalidOpcode => 1
  | .invalidMode => 2
  | .reservedDigit => 3
  | .writeTarget => 4
  | .address => 5
  | .inputDisconnected => 6
  | .outputDisconnected => 7
  | .overflow => 8

/-- The cause a raise records (R221, R222, R223). -/
def Trap.cause : Trap → FaultCause
  | .head .invalidOpcode => .invalidOpcode
  | .head .invalidMode => .invalidMode
  | .head .reservedDigit => .reservedDigit
  | .head .writeTarget => .writeTarget
  | .address _ => .address
  | .inputDisconnected => .inputDisconnected
  | .outputDisconnected => .outputDisconnected
  | .overflow => .overflow

/-- The address a raise records: the exact address for ADDRESS, 0 for every other cause (R229). -/
def Trap.addr : Trap → Int
  | .address ea => ea
  | .head _ | .inputDisconnected | .outputDisconnected | .overflow => 0

/-- The raw opcode word a fault records: the word at `pc`, or 0 where `pc` is no address (R229). -/
def State.wordAtPc (s : State) : Word :=
  if inRange s.pc.toInt then s.mem.read s.pc.toNat else 0#64

/-- Fault entry (R229): everything `raise` writes, and nothing else. FAULTED is final: there is no return (R230). -/
def State.raise (s : State) (t : Trap) : State :=
  { s with
    faultCause := t.cause
    faultPc := s.pc
    faultWord := s.wordAtPc
    faultAddr := BitVec.ofInt 128 t.addr
    state := .faulted
    outClosed := true }

/-- `pc` moves past an instruction of n words (40_execution_cycle.md R145). -/
def State.advance (s : State) (n : Nat) : State := { s with pc := s.pc + BitVec.ofNat 64 n }

/-- A taken jump (R145, 43_control.md R200). -/
def State.jump (s : State) (t : Word) : State := { s with pc := t }

/-- `mem[a] <- v` (20_memory.md R73). -/
def State.store (s : State) (a : Nat) (v : Word) : State := { s with mem := s.mem.write a v }

/-- `rb <- v` (43_control.md R205). -/
def State.setRb (s : State) (v : Word) : State := { s with rb := v }

/-- `push(OutQ, v)` (42_io.md R184). -/
def State.pushOut (s : State) (v : Word) : State := { s with outQ := s.outQ ++ [v] }

/-- `OutQ` is full: no room below `OUT_CAP` (R184; log 11). -/
def State.outFull (s : State) : Bool :=
  match s.params.outCap with
  | none => false
  | some n => decide (n ≤ s.outQ.length)

/-- Input's first step (42_io.md R180). -/
def State.beginWait (s : State) (a : Nat) : State := { s with inTarget := a, state := .waitingForInput }

/-- `InQ` loses its head and the engine runs again (R181). -/
def State.endWait (s : State) (rest : List Word) : State := { s with inQ := rest, state := .running }

/-- Halt (43_control.md R207). -/
def State.halt (s : State) : State := { s with state := .halted, outClosed := true }

/-- The end of a step (40_execution_cycle.md R143): its effects, or the entry into a fault with none of them
(00_scope.md R15). -/
def State.commit (s : State) (r : Except Trap State) : Host.Outcome State Fault Refusal :=
  match r with
  | .ok t => .next t
  | .error e => .next (s.raise e)

end Sys2Proof.Machine
end

