-- ==== Sys2Proof/Machine/Operands.lean ====
section
/-! DEFINITION. Operand forms: address resolution, reading and the write target (spec 30_encoding.md R105 to R112,
40_execution_cycle.md R144), and the shapes the instruction rules share. -/

namespace Sys2Proof.Machine

/-- A resolved operand: `Imm(v)` or `Mem(a)` (10_state.md R53). -/
inductive Resolved where
  | imm (v : Word)
  | mem (a : Nat)
  deriving DecidableEq, Repr

/-- The exact address of an operand in mode 0 or 2 (R111); an immediate has none. -/
def effectiveAddress (rb : Word) (o : Operand) : Option Int :=
  match o.mode with
  | .absolute => some o.raw.toInt
  | .relative => some (rb.toInt + o.raw.toInt)
  | .immediate => none

/-- An operand resolved against `rb` at the start of the instruction: ADDRESS where the exact address is outside
0..`MAX_ADDR` (R111, R115). -/
def resolve (rb : Word) (o : Operand) : Except Trap Resolved :=
  match effectiveAddress rb o with
  | none => .ok (.imm o.raw)
  | some ea => if inRange ea then .ok (.mem ea.toNat) else .error (.address ea)

/-- The write operand's address; WRITE_TARGET for an immediate (R110, R144). -/
def resolveTarget (rb : Word) (o : Operand) : Except Trap Nat :=
  match effectiveAddress rb o with
  | none => .error (.head .writeTarget)
  | some ea => if inRange ea then .ok ea.toNat else .error (.address ea)

/-- The check of R110, made before any operand address is resolved (R115). -/
def requireWritable (o : Operand) : Except Trap Unit :=
  if o.writable then .ok () else .error (.head .writeTarget)

/-- `Read(o)` (R144). -/
def State.value (s : State) : Resolved → Word
  | .imm v => v
  | .mem a => s.mem.read a

/-- Two sources, an ALU operation under the overflow policy, one write, and on by 4 words: the shape of Add, Multiply,
LessThan and Equals (41_arithmetic.md R163, R164, R166, R167). Both sources are read before the write (R168). -/
def State.binary (s : State) (op : AluOp) (a b c : Operand) : Host.Outcome State Fault Refusal :=
  s.commit do
    requireWritable c
    let x ← resolve s.rb a
    let y ← resolve s.rb b
    let d ← resolveTarget s.rb c
    let r ← aluUnder s.params.ovfPolicy op (s.value x) (s.value y)
    pure ((s.store d r).advance 4)

/-- A condition, a target, and `pc` at the target's value or on by 3 words (43_control.md R200). `onZero` tells which
result of ZTEST takes the jump. -/
def State.jumpOn (s : State) (onZero : Bool) (a b : Operand) : Host.Outcome State Fault Refusal :=
  s.commit do
    let x ← resolve s.rb a
    let t ← resolve s.rb b
    let nonZero := decide ((alu .ztest (s.value x) 0#64).1 = 1#64)
    pure (if nonZero = !onZero then s.jump (s.value t) else s.advance 3)

end Sys2Proof.Machine
end

