-- ==== Sys2Proof/Machine/Arithmetic.lean ====
section
/-! DEFINITION. Add, Multiply, LessThan, Equals (spec 41_arithmetic.md). -/

namespace Sys2Proof.Machine

/-- Add (R163). -/
def execAdd (a b c : Operand) (s : State) : Host.Outcome State Fault Refusal := s.binary .add a b c

/-- Multiply (R164). -/
def execMultiply (a b c : Operand) (s : State) : Host.Outcome State Fault Refusal := s.binary .mul a b c

/-- LessThan (R166). -/
def execLessThan (a b c : Operand) (s : State) : Host.Outcome State Fault Refusal := s.binary .lt a b c

/-- Equals (R167). -/
def execEquals (a b c : Operand) (s : State) : Host.Outcome State Fault Refusal := s.binary .eq a b c

end Sys2Proof.Machine
end

