-- ==== Sys2Proof/Machine/Control.lean ====
section
/-! DEFINITION. JumpIfTrue, JumpIfFalse, AdjustRelativeBase, Halt (spec 43_control.md). -/

namespace Sys2Proof.Machine

/-- JumpIfTrue (R201). -/
def execJumpIfTrue (a b : Operand) (s : State) : Host.Outcome State Fault Refusal := s.jumpOn false a b

/-- JumpIfFalse (R202). -/
def execJumpIfFalse (a b : Operand) (s : State) : Host.Outcome State Fault Refusal := s.jumpOn true a b

/-- AdjustRelativeBase (R205). The operand uses the old `rb`. -/
def execAdjustRelativeBase (a : Operand) (s : State) : Host.Outcome State Fault Refusal :=
  s.commit do
    let x ← resolve s.rb a
    let r ← aluUnder s.params.ovfPolicy .add s.rb (s.value x)
    pure ((s.setRb r).advance 2)

/-- Halt (R207): `pc` keeps the Halt's address (R208). -/
def execHalt (s : State) : Host.Outcome State Fault Refusal := .next s.halt

end Sys2Proof.Machine
end

