-- ==== Sys2Proof/Machine/InputOutput.lean ====
section
/-! DEFINITION. Input and Output (spec 42_io.md). -/

namespace Sys2Proof.Machine

/-- Input, first step (R180): the target is latched and the wait begins, whatever `InQ` holds. -/
def execInput (a : Operand) (s : State) : Host.Outcome State Fault Refusal :=
  s.commit do
    let d ← resolveTarget s.rb a
    pure (s.beginWait d)

/-- Input, second step (R181, R182): consume the oldest value, or INPUT_DISCONNECTED, or no step. -/
def completeInput (s : State) : Host.Outcome State Fault Refusal :=
  match s.inQ with
  | v :: rest => .next (((s.store s.inTarget v).endWait rest).advance 2)
  | [] => if s.inClosed then .next (s.raise .inputDisconnected) else .fault .inputBlocked

/-- Output (R184): OUTPUT_DISCONNECTED, or no step on a full queue, or the value is pushed. -/
def execOutput (a : Operand) (s : State) : Host.Outcome State Fault Refusal :=
  match resolve s.rb a with
  | .error e => .next (s.raise e)
  | .ok x =>
    if s.outDisc then .next (s.raise .outputDisconnected)
    else if s.outFull then .fault .outputBlocked
    else .next ((s.pushOut (s.value x)).advance 2)

end Sys2Proof.Machine
end

