-- ==== Sys2Proof/Machine/Dispatch.lean ====
section
/-! DEFINITION. The dispatch on the opcode (spec 40_execution_cycle.md R143): one arm per row of the opcode table. -/

namespace Sys2Proof.Machine

def exec (i : Instr) (s : State) : Host.Outcome State Fault Refusal :=
  match i with
  | .add a b c => Sys2Proof.Machine.execAdd a b c s
  | .multiply a b c => Sys2Proof.Machine.execMultiply a b c s
  | .input a => Sys2Proof.Machine.execInput a s
  | .output a => Sys2Proof.Machine.execOutput a s
  | .jumpIfTrue a b => Sys2Proof.Machine.execJumpIfTrue a b s
  | .jumpIfFalse a b => Sys2Proof.Machine.execJumpIfFalse a b s
  | .lessThan a b c => Sys2Proof.Machine.execLessThan a b c s
  | .equals a b c => Sys2Proof.Machine.execEquals a b c s
  | .adjustRelativeBase a => Sys2Proof.Machine.execAdjustRelativeBase a s
  | .halt => Sys2Proof.Machine.execHalt s

end Sys2Proof.Machine
end

