-- ==== Sys2Proof/Machine/Fetch.lean ====
section
/-! DEFINITION. Fetch and decode at `pc` (spec 30_encoding.md R115, R116), up to the operand addresses, which
Machine/Operands.lean resolves next (log 8). -/

namespace Sys2Proof.Machine

/-- The instruction at `pc`, decoded fresh from memory (40_execution_cycle.md R142), or the first fault of R115. -/
def fetch (s : State) : Except Trap Instr :=
  if inRange s.pc.toInt then
    match decodeHead (s.mem.read s.pc.toNat) with
    | .error e => .error (.head e)
    | .ok h =>
      if s.pc.toInt + h.op.length ≤ maxAddr then
        .ok (h.instr (fun k => s.mem.read (s.pc.toNat + k)))
      else .error (.address (s.pc.toInt + h.op.length))
  else .error (.address s.pc.toInt)

/-- The n words from address a on. -/
def Memory.words (m : Memory) (a : Nat) : Nat → List Word
  | 0 => []
  | n + 1 => m.read a :: Memory.words m (a + 1) n

/-- A state that runs, with room at `pc` for the longest instruction: `pc` is kept where there is room, else 0. -/
def State.readyToFetch (s : State) : State :=
  if inRange s.pc.toInt && decide (s.pc.toInt + 4 ≤ maxAddr) then { s with state := .running }
  else { s with state := .running, pc := 0#64 }

/-- The words stored at `pc`. -/
def State.placeAtPc (s : State) (ws : List Word) : State :=
  { s with mem := s.mem.writeAll s.pc.toNat ws }

end Sys2Proof.Machine
end

