-- ==== Sys2Proof/Machine/Step.lean ====
section
/-! DEFINITION. One step of the engine (spec 40_execution_cycle.md R140 to R147). -/

namespace Sys2Proof.Machine

/-- The engine's step (R140): in RUNNING one instruction, or Input's first half; in WAITING_FOR_INPUT its second half;
in HALTED and FAULTED none. -/
def step (s : State) : Host.Outcome State Fault Refusal :=
  match s.state with
  | .running =>
    match fetch s with
    | .error e => .next (s.raise e)
    | .ok i => exec i s
  | .waitingForInput => completeInput s
  | .halted => .fault .engineHalted
  | .faulted => .fault .engineFaulted

/-- The instruction whose bits are `w` (bits at `nbits` and above 0, up to 4 words) stored where `step` fetches next. The
engine is put in RUNNING, and `pc` at 0 where it leaves no room (log 13). -/
def State.withFetchWord (s : State) (nbits w : Nat) : State :=
  s.readyToFetch.placeAtPc (tableWords nbits w)

end Sys2Proof.Machine
end

