-- ==== Sys2Proof/Machine/HostMoves.lean ====
section
/-! DEFINITION. The host's side of the interface (spec 10_state.md R43, R57; 60_exceptions.md R240 to R246;
70_reset_and_hazards.md R261): the status registers, the host's moves, and runs made of moves of both agents. -/

namespace Sys2Proof.Machine

/-- The encoding of STATUS.STATE (10_state.md R43). -/
def RunState.code : RunState → Nat
  | .running => 0
  | .waitingForInput => 1
  | .halted => 2
  | .faulted => 3

/-- Register 0, STATUS (R43): STATE in bits 1..0, WAITING 2, IN_CLOSED 3, OUT_CLOSED 4, OUT_DISC 5, the rest 0. -/
def State.statusWord (s : State) : Word :=
  BitVec.ofNat 64
    (s.state.code + 4 * s.waiting.toNat + 8 * s.inClosed.toNat + 16 * s.outClosed.toNat + 32 * s.outDisc.toNat)

/-- Status register n (R43); a number other than 0 to 5 is not part of the interface. -/
def State.statusRegister (s : State) : Nat → Option Word
  | 0 => some s.statusWord
  | 1 => some (BitVec.ofNat 64 s.faultCause.code)
  | 2 => some s.faultPc
  | 3 => some s.faultWord
  | 4 => some (s.faultAddr.setWidth 64)
  | 5 => some ((s.faultAddr >>> 64).setWidth 64)
  | _ => none

/-- The engine BUILD makes (R261), before its enabling condition is looked at. -/
def buildEngine (image : List Word) (seed : Option Word) (params : Params) : State :=
  let loaded := Memory.ofImage 0 image
  { mem := match seed with
      | none => loaded
      | some v => loaded.write 0 v
    pc := 0#64, rb := 0#64, state := .running, inTarget := 0
    faultCause := .none, faultPc := 0#64, faultWord := 0#64, faultAddr := 0#128
    inQ := [], inClosed := false, outQ := [], outClosed := false, outDisc := false
    params := params }

/-- The host's moves (60_exceptions.md R240). BUILD also takes the parameters, which are fixed when the engine is built
(R44). -/
inductive HostMove where
  | build (image : List Word) (seed : Option Word) (params : Params)
  | inPush (v : Word)
  | inClose
  | outPop
  | outDisconnect
  | readReg (n : Nat)
  deriving DecidableEq, Repr

/-- What a move returns to the host. -/
inductive Reply where
  | none
  | word (v : Word)
  | endOfStream
  deriving DecidableEq, Repr

/-- The outcome of a move: taken; not enabled until the other agent moves; or no move of the interface
(93_implementation_defined.md, treatments stuck and refuse; log 10). -/
inductive MoveOutcome where
  | done (s : State) (r : Reply)
  | blocked
  | noMove
  deriving DecidableEq, Repr

/-- IN_PUSH(v). -/
def State.inPush (s : State) (v : Word) : MoveOutcome :=
  if s.inClosed then .noMove else .done { s with inQ := s.inQ ++ [v] } .none

/-- IN_CLOSE. -/
def State.inClose (s : State) : MoveOutcome :=
  if s.inClosed then .noMove else .done { s with inClosed := true } .none

/-- OUT_POP: the oldest output; END on an empty closed queue; blocked on an empty open one; none after OUT_DISCONNECT. -/
def State.outPop (s : State) : MoveOutcome :=
  if s.outDisc then .noMove
  else
    match s.outQ with
    | v :: rest => .done { s with outQ := rest } (.word v)
    | [] => if s.outClosed then .done s .endOfStream else .blocked

/-- OUT_DISCONNECT. -/
def State.outDisconnect (s : State) : MoveOutcome :=
  if s.outDisc then .noMove else .done { s with outDisc := true } .none

/-- READ_REG(n). -/
def State.readReg (s : State) (n : Nat) : MoveOutcome :=
  match s.statusRegister n with
  | some v => .done s (.word v)
  | none => .noMove

/-- A host move on the engine, `none` where none is built yet. BUILD needs none built, and an image of at most
`MAX_ADDR` + 1 words (R240, R261). -/
def hostMove (m : HostMove) (e : Option State) : MoveOutcome :=
  match m, e with
  | .build image seed params, none =>
    if decide (image.length ≤ maxAddr + 1) && params.wf then .done (buildEngine image seed params) .none else .noMove
  | .build _ _ _, some _ => .noMove
  | .inPush v, some s => s.inPush v
  | .inClose, some s => s.inClose
  | .outPop, some s => s.outPop
  | .outDisconnect, some s => s.outDisconnect
  | .readReg n, some s => s.readReg n
  | .inPush _, none | .inClose, none | .outPop, none | .outDisconnect, none | .readReg _, none => .noMove

/-- A step of either agent (10_state.md R47; log 6). -/
inductive Move where
  | engine
  | host (m : HostMove)
  deriving DecidableEq, Repr

/-- The engine's step as a move: blocked or absent where the engine has no step (40_execution_cycle.md R140, R146). -/
def engineMove (s : State) : MoveOutcome :=
  match step s with
  | .next t => .done t .none
  | .fault .inputBlocked | .fault .outputBlocked => .blocked
  | .fault .engineHalted | .fault .engineFaulted => .noMove
  | .refused _ => .noMove

/-- One move of the system of engine and host. -/
def systemMove (m : Move) (s : State) : MoveOutcome :=
  match m with
  | .engine => engineMove s
  | .host h => hostMove h (some s)

/-- A streaming run (60_exceptions.md R244): the moves taken in turn, with what each returned; none where one is not
enabled. -/
def runMoves : List Move → State → Option (State × List Reply)
  | [], s => some (s, [])
  | m :: ms, s =>
    match systemMove m s with
    | .done t r =>
      match runMoves ms t with
      | some (u, rs) => some (u, r :: rs)
      | none => none
    | .blocked | .noMove => none

/-- The batch run's pre-fill: IN_PUSH of each input in order, then IN_CLOSE (R245). -/
def prefillMoves (inputs : List Word) : List Move :=
  inputs.map (fun v => .host (.inPush v)) ++ [.host .inClose]

/-- The batch run from a pre-filled engine, under fuel (40_execution_cycle.md R149): the engine steps while it can, else
the host pops, until END; the popped words in order (R245; log 15). -/
def batchLoop : Nat → State → List Word → Option (State × List Word)
  | 0, _, _ => none
  | n + 1, s, out =>
    match engineMove s with
    | .done t _ => batchLoop n t out
    | .blocked | .noMove =>
      match s.outPop with
      | .done t (.word v) => batchLoop n t (out ++ [v])
      | .done t .endOfStream => some (t, out)
      | .done _ .none | .blocked | .noMove => none

/-- The batch run of R245: the final state and the outputs, none where the fuel does not suffice or BUILD has no move. -/
def batchRun (fuel : Nat) (image : List Word) (seed : Option Word) (params : Params) (inputs : List Word) :
    Option (State × List Word) :=
  match hostMove (.build image seed params) none with
  | .done s _ =>
    match runMoves (prefillMoves inputs) s with
    | some (t, _) => batchLoop fuel t []
    | none => none
  | .blocked | .noMove => none

end Sys2Proof.Machine
end

