-- ==== Sys2Proof/Safety.lean ====
section
/-! DEFINITION. The terms claims are stated in: the end of a run (spec 40_execution_cycle.md R148), the blocked steps
(R146), where a step stores (20_memory.md R77), the invariant of the engine, the reachable states under every
interleaving with the host (10_state.md R47), and the words that pass through the queues (R42). -/

namespace Sys2Proof.Machine

/-- A run has ended: HALTED or FAULTED (R148). -/
def State.ended (s : State) : Bool := decide (s.state = .halted) || decide (s.state = .faulted)

/-- A run has ended well: HALTED (R148). -/
def State.endedWell (s : State) : Bool := decide (s.state = .halted)

/-- A run is safe so far: it has not ended in a fault (60_exceptions.md R220). -/
def State.safe (s : State) : Bool := decide (s.state ≠ .faulted)

/-- The address `exec i` stores to in its own step: the write operand's, for every instruction but Input, whose store
is in its second step (20_memory.md R77, 42_io.md R181). -/
def execStoreAddress (i : Instr) (s : State) : Option Nat :=
  match i with
  | .add _ _ c | .multiply _ _ c | .lessThan _ _ c | .equals _ _ c =>
    match resolveTarget s.rb c with
    | .ok d => some d
    | .error _ => none
  | .input _ | .output _ | .jumpIfTrue _ _ | .jumpIfFalse _ _ | .adjustRelativeBase _ | .halt => none

/-- The one address a step can store to (R77): the fetched instruction's, or the latched target when an Input
completes. -/
def stepStoreAddress (s : State) : Option Nat :=
  match s.state with
  | .running =>
    match fetch s with
    | .ok i => execStoreAddress i s
    | .error _ => none
  | .waitingForInput =>
    match s.inQ with
    | [] => none
    | _ :: _ => some s.inTarget
  | .halted | .faulted => none

/-- What holds of an engine from BUILD on, whatever the program and the host do. -/
structure State.Inv (s : State) : Prop where
  /-- memory is in its canonical form -/
  memCanonical : s.mem.wf = true
  /-- `OUT_CAP` is positive (R11) -/
  paramsLegal : s.params.wf = true
  /-- the output queue never exceeds `OUT_CAP` (10_state.md R41) -/
  outWithinCap : ∀ n, s.params.outCap = some n → s.outQ.length ≤ n
  /-- the latch holds an address (R38) -/
  targetInRange : s.inTarget ≤ maxAddr
  /-- while the engine waits, the Input at `pc` still decodes to the latched target (70_reset_and_hazards.md R268) -/
  waitingOnInput : s.state = .waitingForInput → ∃ a, fetch s = .ok (.input a) ∧ resolveTarget s.rb a = .ok s.inTarget
  /-- the output is closed exactly when the run has ended (R41) -/
  closedWhenEnded : s.outClosed = s.ended
  /-- the fault registers are 0 until a fault (R39) -/
  clearUntilFault : s.state ≠ .faulted →
    s.faultCause = .none ∧ s.faultPc = 0#64 ∧ s.faultWord = 0#64 ∧ s.faultAddr = 0#128
  /-- after a fault they keep its record (60_exceptions.md R229, R230) -/
  recordAfterFault : s.state = .faulted →
    s.faultCause ≠ .none ∧ s.faultPc = s.pc ∧ s.faultWord = s.wordAtPc ∧
      (s.faultCause ≠ .address → s.faultAddr = 0#128) ∧
      (s.faultCause = .address → inRange s.faultAddr.toInt = false)

/-- The states an engine can come to, under every interleaving of its steps with the host's moves (R47). -/
inductive Reachable : State → Prop where
  | build {image : List Word} {seed : Option Word} {params : Params} {s : State} {r : Reply}
      (h : hostMove (.build image seed params) none = .done s r) : Reachable s
  | move {s t : State} {m : Move} {r : Reply} (hs : Reachable s) (h : systemMove m s = .done t r) : Reachable t

/-- The word a move carries through a queue. -/
inductive Event where
  | pushed (v : Word)
  | consumed (v : Word)
  | emitted (v : Word)
  | popped (v : Word)
  | silent
  deriving DecidableEq, Repr

/-- The word an engine step taken in `s` consumes (42_io.md R181) or emits (R184), told from the instruction alone. -/
def engineEvent (s : State) : Event :=
  match s.state with
  | .running =>
    match fetch s with
    | .ok (.output a) =>
      match resolve s.rb a with
      | .ok x => if s.outDisc then .silent else .emitted (s.value x)
      | .error _ => .silent
    | .ok (.add _ _ _) | .ok (.multiply _ _ _) | .ok (.input _) | .ok (.jumpIfTrue _ _) | .ok (.jumpIfFalse _ _)
    | .ok (.lessThan _ _ _) | .ok (.equals _ _ _) | .ok (.adjustRelativeBase _) | .ok .halt => .silent
    | .error _ => .silent
  | .waitingForInput =>
    match s.inQ with
    | [] => .silent
    | v :: _ => .consumed v
  | .halted | .faulted => .silent

/-- The event of a move taken in `s` that returned `r`. -/
def moveEvent (m : Move) (s : State) (r : Reply) : Event :=
  match m with
  | .engine => engineEvent s
  | .host (.inPush v) => .pushed v
  | .host .outPop =>
    match r with
    | .word v => .popped v
    | .none | .endOfStream => .silent
  | .host (.build _ _ _) | .host .inClose | .host .outDisconnect | .host (.readReg _) => .silent

/-- A run of moves of both agents, with the events in order. -/
inductive Run : State → List Event → State → Prop where
  | nil (s : State) : Run s [] s
  | cons {s t u : State} {m : Move} {r : Reply} {es : List Event}
      (h : systemMove m s = .done t r) (rest : Run t es u) : Run s (moveEvent m s r :: es) u

/-- The words pushed, consumed, emitted and popped in a run, each in order. -/
def pushedWords (es : List Event) : List Word :=
  es.filterMap fun | .pushed v => some v | .consumed _ | .emitted _ | .popped _ | .silent => none
def consumedWords (es : List Event) : List Word :=
  es.filterMap fun | .consumed v => some v | .pushed _ | .emitted _ | .popped _ | .silent => none
def emittedWords (es : List Event) : List Word :=
  es.filterMap fun | .emitted v => some v | .pushed _ | .consumed _ | .popped _ | .silent => none
def poppedWords (es : List Event) : List Word :=
  es.filterMap fun | .popped v => some v | .pushed _ | .consumed _ | .emitted _ | .silent => none

/-- The causes the execution of an instruction can raise once it is decoded (60_exceptions.md R227). -/
def mayRaise : Instr → FaultCause → Bool
  | .add _ _ _, c | .multiply _ _ _, c => decide (c = .address) || decide (c = .overflow)
  | .lessThan _ _ _, c | .equals _ _ _, c => decide (c = .address)
  | .input _, c => decide (c = .address) || decide (c = .inputDisconnected)
  | .output _, c => decide (c = .address) || decide (c = .outputDisconnected)
  | .jumpIfTrue _ _, c | .jumpIfFalse _ _, c => decide (c = .address)
  | .adjustRelativeBase _, c => decide (c = .address) || decide (c = .overflow)
  | .halt, _ => false

end Sys2Proof.Machine
end

