-- ==== Sys2Proof/Certificates/Slice0/Obligations.lean ====
section
/-! DEFINITION. The statements for the provers. Each docstring names the rules of spec/ it formalises. A statement
ranges over both values of `OVF_POLICY` and every `OUT_CAP`, since they are fields of the state (log 2). -/

open Sys2Proof Sys2Proof.Machine

/-! ### Terms of the encoding statements -/

/-- The modes an opcode word can hold: a write position is not immediate, and digits beyond the arity are 0
(30_encoding.md R110, R114, R119). -/
def Sys2Proof.Head.legal (h : Head) : Bool :=
  h.writeOk && (decide (1 ≤ h.op.arity) || decide (h.m1 = .absolute)) &&
    (decide (2 ≤ h.op.arity) || decide (h.m2 = .absolute)) && (decide (3 ≤ h.op.arity) || decide (h.m3 = .absolute))

/-- The complete table of 30_encoding.md R119, copied row by row: OP, count, legal opcode words. -/
def Sys2Proof.legalWordTable : List (Nat × Nat × List Nat) :=
  [(1, 18, [1, 101, 201, 1001, 1101, 1201, 2001, 2101, 2201, 20001, 20101, 20201, 21001, 21101, 21201, 22001, 22101, 22201]),
   (2, 18, [2, 102, 202, 1002, 1102, 1202, 2002, 2102, 2202, 20002, 20102, 20202, 21002, 21102, 21202, 22002, 22102, 22202]),
   (3, 2, [3, 203]),
   (4, 3, [4, 104, 204]),
   (5, 9, [5, 105, 205, 1005, 1105, 1205, 2005, 2105, 2205])] ++
  [(6, 9, [6, 106, 206, 1006, 1106, 1206, 2006, 2106, 2206]),
   (7, 18, [7, 107, 207, 1007, 1107, 1207, 2007, 2107, 2207, 20007, 20107, 20207, 21007, 21107, 21207, 22007, 22107, 22207]),
   (8, 18, [8, 108, 208, 1008, 1108, 1208, 2008, 2108, 2208, 20008, 20108, 20208, 21008, 21108, 21208, 22008, 22108, 22208]),
   (9, 3, [9, 109, 209]),
   (99, 1, [99])]

/-- The fault of operand position k of an opcode of arity n in an opcode word w < 100000, if any (R109, R114, R115). -/
def Sys2Proof.positionFault (n k w : Nat) : Option HeadFault :=
  if k ≤ n then (if 2 < digit (k + 1) w then some .invalidMode else none)
  else (if digit (k + 1) w ≠ 0 then some .reservedDigit else none)

/-- The first operand, in order, whose exact address is outside 0..`MAX_ADDR` (R111, R115). -/
def Sys2Proof.firstAddressFault (rb : Word) : List Operand → Option Trap
  | [] => none
  | o :: os =>
    match effectiveAddress rb o with
    | none => firstAddressFault rb os
    | some ea => if inRange ea then firstAddressFault rb os else some (.address ea)

/-- The code a raise records (60_exceptions.md R221, R222 to R226). -/
def Sys2Proof.trapCode : Trap → Nat
  | .head .invalidOpcode => 1
  | .head .invalidMode => 2
  | .head .reservedDigit => 3
  | .head .writeTarget => 4
  | .address _ => 5
  | .inputDisconnected => 6
  | .outputDisconnected => 7
  | .overflow => 8

/-- A row of the table of 41_arithmetic.md R165. -/
structure Sys2Proof.AluRow where
  op     : AluOp
  a      : Int
  b      : Int
  exact  : Int
  result : Int
  ovf    : Bool

/-- The table of 41_arithmetic.md R165, row by row. -/
def Sys2Proof.aluCorners : List AluRow :=
  [⟨.add, 9223372036854775807, 1, 9223372036854775808, -9223372036854775808, true⟩,
   ⟨.add, -9223372036854775808, -1, -9223372036854775809, 9223372036854775807, true⟩,
   ⟨.add, 9223372036854775807, 9223372036854775807, 18446744073709551614, -2, true⟩,
   ⟨.add, -9223372036854775808, -9223372036854775808, -18446744073709551616, 0, true⟩,
   ⟨.add, 9223372036854775807, -9223372036854775808, -1, -1, false⟩,
   ⟨.add, -1, 1, 0, 0, false⟩] ++
  [⟨.mul, -3, 7, -21, -21, false⟩,
   ⟨.mul, -3, -7, 21, 21, false⟩,
   ⟨.mul, 3, -7, -21, -21, false⟩,
   ⟨.mul, 0, -9223372036854775808, 0, 0, false⟩,
   ⟨.mul, -9223372036854775808, 1, -9223372036854775808, -9223372036854775808, false⟩,
   ⟨.mul, -9223372036854775808, -1, 9223372036854775808, -9223372036854775808, true⟩,
   ⟨.mul, 4294967296, 4294967296, 18446744073709551616, 0, true⟩] ++
  [⟨.mul, 3037000499, 3037000499, 9223372030926249001, 9223372030926249001, false⟩,
   ⟨.mul, 3037000500, 3037000500, 9223372037000250000, -9223372036709301616, true⟩,
   ⟨.mul, 9223372036854775807, 2, 18446744073709551614, -2, true⟩,
   ⟨.mul, 9223372036854775807, 9223372036854775807, 85070591730234615847396907784232501249, 1, true⟩,
   ⟨.mul, 4611686018427387904, 2, 9223372036854775808, -9223372036854775808, true⟩,
   ⟨.mul, -4611686018427387904, 2, -9223372036854775808, -9223372036854775808, false⟩]

/-! ### Encoding and decoding -/

/-- Words written out from the spec's encodings decode to the instructions they stand for, one per opcode
(30_encoding.md R100, R104, the example of R122, 95_test_vectors.md). -/
def Obligations.SampleWordsDecode : Prop :=
  decode [1201#64, 1#64, 5#64, 100#64] = .ok (.add (.rel 1#64) (.imm 5#64) (.abs 100#64), []) ∧
  decode [1002#64, 4#64, 3#64, 4#64] = .ok (.multiply (.abs 4#64) (.imm 3#64) (.abs 4#64), []) ∧
  decode [203#64, 7#64] = .ok (.input (.rel 7#64), []) ∧
  decode [104#64, 9#64, 99#64] = .ok (.output (.imm 9#64), [99#64]) ∧
  decode [2205#64, 0#64, 1#64] = .ok (.jumpIfTrue (.rel 0#64) (.rel 1#64), []) ∧
  decode [1006#64, 7#64, 6#64] = .ok (.jumpIfFalse (.abs 7#64) (.imm 6#64), []) ∧
  decode [22207#64, 0#64, 1#64, 2#64] = .ok (.lessThan (.rel 0#64) (.rel 1#64) (.rel 2#64), []) ∧
  decode [1008#64, 100#64, 16#64, 101#64] = .ok (.equals (.abs 100#64) (.imm 16#64) (.abs 101#64), []) ∧
  decode [109#64, 19#64] = .ok (.adjustRelativeBase (.imm 19#64), []) ∧
  decode [99#64] = .ok (.halt, [])

/-- 30_encoding.md R120, which the spec derives from R100 and R119: the opcode word is the sum of its digits' weights,
decoding it gives back opcode, modes, arity and length, and re-encoding a legal opcode word gives the same word. -/
def Obligations.OpcodeWordRoundTrip : Prop :=
  (∀ h : Head, h.legal = true →
    (encodeHead h).toNat = h.op.code + 100 * h.m1.digit + 1000 * h.m2.digit + 10000 * h.m3.digit ∧
    decodeHead (encodeHead h) = .ok h ∧
    ∀ raw, (h.instr raw).operands.length = h.op.arity ∧ (h.instr raw).length = h.op.arity + 1) ∧
  (∀ (w : Word) (h : Head), decodeHead w = .ok h → h.legal = true ∧ encodeHead h = w)

/-- Decode and encode agree on every instruction of every family, with every operand at every value and any words
following (30_encoding.md sections 1, 3 and 4). -/
def Obligations.EncodedInstructionsDecode : Prop :=
  ∀ (i : Instr) (rest : List Word), i.wf = true → decode (encode i ++ rest) = .ok (i, rest)

/-- Words have one meaning: what decodes to an instruction is its encoding, and the instruction is well formed
(30_encoding.md sections 1 and 4). -/
def Obligations.DecodedWordsReencode : Prop :=
  ∀ (ws rest : List Word) (i : Instr), decode ws = .ok (i, rest) → i.wf = true ∧ encode i ++ rest = ws

/-- 30_encoding.md R119, a table the spec derives from R100 to R114: the legal opcode words are exactly the 99 of the
table, in the counts it gives. -/
def Obligations.LegalOpcodeWordsAreTheTable : Prop :=
  (∀ w : Word, (∃ h, decodeHead w = .ok h) ↔ ∃ row ∈ legalWordTable, ∃ n ∈ row.2.2, w = BitVec.ofNat 64 n) ∧
  (∀ (w : Word) (h : Head), decodeHead w = .ok h →
    ∃ row ∈ legalWordTable, row.1 = h.op.code ∧ w.toNat ∈ row.2.2) ∧
  (∀ row ∈ legalWordTable, row.2.2.length = row.2.1 ∧ row.2.2.Nodup) ∧
  (legalWordTable.flatMap fun row => row.2.2).length = 99

/-- 30_encoding.md R109, R110, R113, R114, R117, R118: what a running engine raises for each illegal or reserved
opcode word, in the order of R115, and the cause code each raise records. -/
def Obligations.IllegalOpcodeWordsFault : Prop :=
  (∀ s : State, (s.raise (.head .invalidOpcode)).faultCause.code = 1 ∧ (s.raise (.head .invalidMode)).faultCause.code = 2 ∧
    (s.raise (.head .reservedDigit)).faultCause.code = 3 ∧ (s.raise (.head .writeTarget)).faultCause.code = 4) ∧
  ∀ s : State, s.state = .running → 0 ≤ s.pc.toInt →
    let w := s.mem.read s.pc.toNat
    (w.toInt < 0 → step s = .next (s.raise (.head .invalidOpcode))) ∧
    (0 ≤ w.toInt → w.toNat % 100 ∉ [1, 2, 3, 4, 5, 6, 7, 8, 9, 99] → step s = .next (s.raise (.head .invalidOpcode))) ∧
    (∀ op : Opcode, 0 ≤ w.toInt → w.toNat % 100 = op.code →
      (100000 ≤ w.toNat → step s = .next (s.raise (.head .reservedDigit))) ∧
      (w.toNat < 100000 →
        (∀ (k : Nat) (f : HeadFault), 1 ≤ k → k ≤ 3 →
          (∀ j, 1 ≤ j → j < k → positionFault op.arity j w.toNat = none) →
          positionFault op.arity k w.toNat = some f → step s = .next (s.raise (.head f))) ∧
        (∀ k : Nat, (∀ j, 1 ≤ j → j ≤ 3 → positionFault op.arity j w.toNat = none) →
          op.writePosition = some k → digit (k + 1) w.toNat = 1 →
          step s = .next (s.raise (.head .writeTarget)))))

/-- 30_encoding.md R116: a fetch at a negative `pc` faults, so does an instruction whose successor is past `MAX_ADDR`,
and an instruction that is fetched lies wholly inside the address space. -/
def Obligations.FetchStaysInAddressSpace : Prop :=
  ∀ s : State, s.state = .running →
    (s.pc.toInt < 0 → ∃ t, step s = .next t ∧ t.state = .faulted ∧ t.faultCause = .address ∧ t.faultPc = s.pc ∧
      t.faultWord = 0#64 ∧ t.faultAddr.toInt = s.pc.toInt) ∧
    (∀ h : Head, 0 ≤ s.pc.toInt → decodeHead (s.mem.read s.pc.toNat) = .ok h →
      (maxAddr : Int) < s.pc.toInt + h.op.arity + 1 →
      ∃ t, step s = .next t ∧ t.state = .faulted ∧ t.faultCause = .address ∧ t.faultPc = s.pc ∧
        t.faultWord = s.mem.read s.pc.toNat ∧ t.faultAddr.toInt = s.pc.toInt + h.op.arity + 1) ∧
    (∀ i : Instr, fetch s = .ok i → 0 ≤ s.pc.toInt ∧ s.pc.toInt + i.length ≤ maxAddr)

/-! ### The step and its operands -/

/-- A step runs the decoded instruction: a running engine whose words at `pc` decode to `i`, with room for `i` below
the top, does exactly `exec i` (40_execution_cycle.md R142, R143). The step adds nothing around `exec`, which moves
`pc`. -/
def Obligations.StepRunsDecodedInstruction : Prop :=
  ∀ (s : State) (i : Instr) (rest : List Word), s.state = .running → 0 ≤ s.pc.toInt →
    s.pc.toInt + i.length ≤ maxAddr → decode (s.mem.words s.pc.toNat 4) = .ok (i, rest) → step s = exec i s

/-- A step runs the instruction whose encoding stands at `pc` (40_execution_cycle.md R142, 30_encoding.md R120). -/
def Obligations.StepRunsEncodedInstruction : Prop :=
  ∀ (s : State) (i : Instr), s.state = .running → 0 ≤ s.pc.toInt → s.pc.toInt + i.length ≤ maxAddr → i.wf = true →
    s.mem.words s.pc.toNat i.length = encode i → step s = exec i s

/-- The three operand modes, as a source and as a target (30_encoding.md section 3, R105 to R112). -/
def Obligations.OperandModesResolve : Prop :=
  ∀ (s : State) (raw : Word),
    (0 ≤ raw.toInt →
      resolve s.rb (.abs raw) = .ok (.mem raw.toNat) ∧ s.value (.mem raw.toNat) = s.mem.read raw.toNat ∧
      resolveTarget s.rb (.abs raw) = .ok raw.toNat) ∧
    (raw.toInt < 0 →
      resolve s.rb (.abs raw) = .error (.address raw.toInt) ∧
      resolveTarget s.rb (.abs raw) = .error (.address raw.toInt)) ∧
    (resolve s.rb (.imm raw) = .ok (.imm raw) ∧ s.value (.imm raw) = raw ∧
      resolveTarget s.rb (.imm raw) = .error (.head .writeTarget)) ∧
    (0 ≤ s.rb.toInt + raw.toInt → s.rb.toInt + raw.toInt ≤ maxAddr →
      resolve s.rb (.rel raw) = .ok (.mem (s.rb.toInt + raw.toInt).toNat) ∧
      resolveTarget s.rb (.rel raw) = .ok (s.rb.toInt + raw.toInt).toNat) ∧
    (s.rb.toInt + raw.toInt < 0 ∨ (maxAddr : Int) < s.rb.toInt + raw.toInt →
      resolve s.rb (.rel raw) = .error (.address (s.rb.toInt + raw.toInt)) ∧
      resolveTarget s.rb (.rel raw) = .error (.address (s.rb.toInt + raw.toInt)))

/-- Every instruction with an operand address out of range raises ADDRESS for the first one in operand order, whatever
else is wrong (30_encoding.md section 4, R115; 60_exceptions.md R228). -/
def Obligations.FirstBadOperandAddressFaults : Prop :=
  ∀ (s : State) (i : Instr) (e : Trap), i.wf = true → firstAddressFault s.rb i.operands = some e →
    exec i s = .next (s.raise e)

/-! ### The ALU and the arithmetic family -/

/-- 41_arithmetic.md R165, a table the spec derives from R160 and R161: every row; under FAULT a row with `ovf` raises
OVERFLOW instead. -/
def Obligations.AluCornerTable : Prop :=
  ∀ row ∈ aluCorners,
    (wrap64 row.a).toInt = row.a ∧ (wrap64 row.b).toInt = row.b ∧
    row.exact = (if row.op = .add then row.a + row.b else row.a * row.b) ∧
    alu row.op (wrap64 row.a) (wrap64 row.b) = (wrap64 row.result, row.ovf) ∧ (wrap64 row.result).toInt = row.result ∧
    aluUnder .wrap row.op (wrap64 row.a) (wrap64 row.b) = .ok (wrap64 row.result) ∧
    (row.ovf = true → aluUnder .fault row.op (wrap64 row.a) (wrap64 row.b) = .error .overflow) ∧
    (row.ovf = false → aluUnder .fault row.op (wrap64 row.a) (wrap64 row.b) = .ok (wrap64 row.result))

/-- 41_arithmetic.md R160: add64 and mul64 give the word congruent to the exact result modulo 2^64, and `ovf` exactly
when the exact result does not fit. -/
def Obligations.AddAndMultiplyWrapExactResults : Prop :=
  ∀ a b : Word,
    (((add64 a b).1.toInt - (a.toInt + b.toInt)) % 18446744073709551616 = 0 ∧
      ((add64 a b).2 = true ↔
        ¬ (-9223372036854775808 ≤ a.toInt + b.toInt ∧ a.toInt + b.toInt ≤ 9223372036854775807))) ∧
    (((mul64 a b).1.toInt - a.toInt * b.toInt) % 18446744073709551616 = 0 ∧
      ((mul64 a b).2 = true ↔
        ¬ (-9223372036854775808 ≤ a.toInt * b.toInt ∧ a.toInt * b.toInt ≤ 9223372036854775807)))

/-- 41_arithmetic.md R163, in every operand form: Add's words; it stores the wrapped sum and moves on by 4; OVERFLOW
only under FAULT, with nothing written. -/
def Obligations.AddStoresSumOrOverflows : Prop :=
  ∀ (s : State) (a b c : Operand),
    encode (.add a b c) =
      [BitVec.ofNat 64 (10000 * c.mode.digit + 1000 * b.mode.digit + 100 * a.mode.digit + 1), a.raw, b.raw, c.raw] ∧
    ∀ (x y : Resolved) (d : Nat),
      resolve s.rb a = .ok x → resolve s.rb b = .ok y → resolveTarget s.rb c = .ok d →
      (s.params.ovfPolicy = .wrap ∨ fits64 ((s.value x).toInt + (s.value y).toInt) = true →
        exec (.add a b c) s =
          .next { s with mem := s.mem.write d (wrap64 ((s.value x).toInt + (s.value y).toInt)), pc := s.pc + 4#64 }) ∧
      (s.params.ovfPolicy = .fault → fits64 ((s.value x).toInt + (s.value y).toInt) = false →
        exec (.add a b c) s = .next (s.raise .overflow))

/-- 41_arithmetic.md R164, in every operand form: Multiply's words; it stores the wrapped product and moves on by 4;
OVERFLOW only under FAULT, with nothing written. -/
def Obligations.MultiplyStoresProductOrOverflows : Prop :=
  ∀ (s : State) (a b c : Operand),
    encode (.multiply a b c) =
      [BitVec.ofNat 64 (10000 * c.mode.digit + 1000 * b.mode.digit + 100 * a.mode.digit + 2), a.raw, b.raw, c.raw] ∧
    ∀ (x y : Resolved) (d : Nat),
      resolve s.rb a = .ok x → resolve s.rb b = .ok y → resolveTarget s.rb c = .ok d →
      (s.params.ovfPolicy = .wrap ∨ fits64 ((s.value x).toInt * (s.value y).toInt) = true →
        exec (.multiply a b c) s =
          .next { s with mem := s.mem.write d (wrap64 ((s.value x).toInt * (s.value y).toInt)), pc := s.pc + 4#64 }) ∧
      (s.params.ovfPolicy = .fault → fits64 ((s.value x).toInt * (s.value y).toInt) = false →
        exec (.multiply a b c) s = .next (s.raise .overflow))

/-- 41_arithmetic.md R166, in every operand form: LessThan's words; it stores 1 or 0 by the signed comparison, under
either policy. -/
def Obligations.LessThanStoresSignedComparison : Prop :=
  ∀ (s : State) (a b c : Operand),
    encode (.lessThan a b c) =
      [BitVec.ofNat 64 (10000 * c.mode.digit + 1000 * b.mode.digit + 100 * a.mode.digit + 7), a.raw, b.raw, c.raw] ∧
    ∀ (x y : Resolved) (d : Nat),
      resolve s.rb a = .ok x → resolve s.rb b = .ok y → resolveTarget s.rb c = .ok d →
      exec (.lessThan a b c) s =
        .next { s with
          mem := s.mem.write d (if (s.value x).toInt < (s.value y).toInt then 1#64 else 0#64), pc := s.pc + 4#64 }

/-- 41_arithmetic.md R167, in every operand form: Equals' words; it stores 1 or 0 by equality of whole words, under
either policy. -/
def Obligations.EqualsStoresWordEquality : Prop :=
  ∀ (s : State) (a b c : Operand),
    encode (.equals a b c) =
      [BitVec.ofNat 64 (10000 * c.mode.digit + 1000 * b.mode.digit + 100 * a.mode.digit + 8), a.raw, b.raw, c.raw] ∧
    ∀ (x y : Resolved) (d : Nat),
      resolve s.rb a = .ok x → resolve s.rb b = .ok y → resolveTarget s.rb c = .ok d →
      exec (.equals a b c) s =
        .next { s with mem := s.mem.write d (if s.value x = s.value y then 1#64 else 0#64), pc := s.pc + 4#64 }

/-- A write operand that is also a source is read before it is written (41_arithmetic.md section 3): `Add [x], [x],
[x]` doubles the cell, and `LessThan [x], [y], [x]` compares the old cell. -/
def Obligations.AliasedSourcesAreReadFirst : Prop :=
  ∀ (s : State) (o p : Operand) (d : Nat) (y : Resolved), s.mem.wf = true → resolveTarget s.rb o = .ok d →
    resolve s.rb p = .ok y →
    (s.params.ovfPolicy = .wrap →
      ∃ t, exec (.add o o o) s = .next t ∧ t.mem.read d = wrap64 (2 * (s.mem.read d).toInt)) ∧
    ∃ t, exec (.lessThan o p o) s = .next t ∧
      t.mem.read d = if (s.mem.read d).toInt < (s.value y).toInt then 1#64 else 0#64

/-! ### Input and Output -/

/-- 42_io.md R180: Input's first step latches the target and waits, whatever the queue holds; a fault of its target is
raised here, before the wait. -/
def Obligations.InputBeginsWait : Prop :=
  ∀ (s : State) (a : Operand),
    encode (.input a) = [BitVec.ofNat 64 (100 * a.mode.digit + 3), a.raw] ∧
    (∀ d : Nat, resolveTarget s.rb a = .ok d →
      exec (.input a) s = .next { s with inTarget := d, state := .waitingForInput } ∧
      ({ s with inTarget := d, state := .waitingForInput } : State).waiting = true) ∧
    (∀ e : Trap, resolveTarget s.rb a = .error e →
      exec (.input a) s = .next (s.raise e) ∧ (s.raise e).waiting = false ∧ (s.raise e).inQ = s.inQ)

/-- 42_io.md R181 and R182: Input's second step consumes the oldest value, even after a close; on an empty closed
queue it raises INPUT_DISCONNECTED; on an empty open queue there is no step. -/
def Obligations.InputCompletesOrFaultsOrBlocks : Prop :=
  ∀ s : State, s.state = .waitingForInput →
    (∀ (v : Word) (q : List Word), s.inQ = v :: q →
      step s = .next { s with mem := s.mem.write s.inTarget v, inQ := q, state := .running, pc := s.pc + 2#64 } ∧
      ({ s with mem := s.mem.write s.inTarget v, inQ := q, state := .running, pc := s.pc + 2#64 } : State).waiting =
        false) ∧
    (s.inQ = [] → s.inClosed = true →
      step s = .next (s.raise .inputDisconnected) ∧ (s.raise .inputDisconnected).faultCause.code = 6 ∧
        (s.raise .inputDisconnected).faultPc = s.pc ∧ (s.raise .inputDisconnected).faultWord = s.wordAtPc) ∧
    (s.inQ = [] → s.inClosed = false → ∀ t, step s ≠ .next t)

/-- 42_io.md R184: Output pushes the operand's value and moves on by 2 when connected with room; it raises
OUTPUT_DISCONNECTED when disconnected, full or not; on a full connected queue there is no step. -/
def Obligations.OutputPushesOrFaultsOrBlocks : Prop :=
  ∀ (s : State) (a : Operand),
    encode (.output a) = [BitVec.ofNat 64 (100 * a.mode.digit + 4), a.raw] ∧
    ∀ x : Resolved, resolve s.rb a = .ok x →
      (s.outDisc = true →
        exec (.output a) s = .next (s.raise .outputDisconnected) ∧
          (s.raise .outputDisconnected).faultCause.code = 7) ∧
      (∀ n : Nat, s.outDisc = false → s.params.outCap = some n → s.outQ.length = n →
        ∀ t, exec (.output a) s ≠ .next t) ∧
      (s.outDisc = false → (∀ n : Nat, s.params.outCap = some n → s.outQ.length < n) →
        exec (.output a) s = .next { s with outQ := s.outQ ++ [s.value x], pc := s.pc + 2#64 })

/-! ### Control transfer, the relative base, Halt -/

/-- 43_control.md R201, in every operand form: JumpIfTrue's words; `pc` becomes the second operand's value where the
first is not 0, else it moves on by 3; nothing else changes. -/
def Obligations.JumpIfTrueSetsPc : Prop :=
  ∀ (s : State) (a b : Operand),
    encode (.jumpIfTrue a b) = [BitVec.ofNat 64 (1000 * b.mode.digit + 100 * a.mode.digit + 5), a.raw, b.raw] ∧
    ∀ x y : Resolved, resolve s.rb a = .ok x → resolve s.rb b = .ok y →
      exec (.jumpIfTrue a b) s = .next { s with pc := if s.value x ≠ 0#64 then s.value y else s.pc + 3#64 }

/-- 43_control.md R202, in every operand form: JumpIfFalse's words; `pc` becomes the second operand's value where the
first is 0, else it moves on by 3; nothing else changes. -/
def Obligations.JumpIfFalseSetsPc : Prop :=
  ∀ (s : State) (a b : Operand),
    encode (.jumpIfFalse a b) = [BitVec.ofNat 64 (1000 * b.mode.digit + 100 * a.mode.digit + 6), a.raw, b.raw] ∧
    ∀ x y : Resolved, resolve s.rb a = .ok x → resolve s.rb b = .ok y →
      exec (.jumpIfFalse a b) s = .next { s with pc := if s.value x = 0#64 then s.value y else s.pc + 3#64 }

/-- 43_control.md R203: a jump to a negative target succeeds, and the next fetch raises ADDRESS there; a target that
is not negative is in range. -/
def Obligations.NegativeJumpTargetFaultsAtNextFetch : Prop :=
  (∀ (s : State) (i : Instr) (a b : Operand) (x y : Resolved), s.state = .running →
    resolve s.rb a = .ok x → resolve s.rb b = .ok y → (s.value y).toInt < 0 →
    (i = .jumpIfTrue a b ∧ s.value x ≠ 0#64) ∨ (i = .jumpIfFalse a b ∧ s.value x = 0#64) →
    ∃ t u, exec i s = .next t ∧ t.pc = s.value y ∧ t.state = .running ∧ step t = .next u ∧ u.state = .faulted ∧
      u.faultCause = .address ∧ u.faultPc = s.value y ∧ u.faultWord = 0#64 ∧ u.faultAddr.toInt = (s.value y).toInt) ∧
  ∀ w : Word, 0 ≤ w.toInt → inRange w.toInt = true

/-- 43_control.md R204, which the spec derives from R201 and R149: a taken jump to its own address runs for ever, with
no fault and no end. -/
def Obligations.SelfJumpRunsForEver : Prop :=
  ∀ (k : Nat) (s : State) (a b : Operand) (x y : Resolved), s.state = .running →
    resolve s.rb a = .ok x → resolve s.rb b = .ok y → s.value y = s.pc →
    (fetch s = .ok (.jumpIfTrue a b) ∧ s.value x ≠ 0#64) ∨ (fetch s = .ok (.jumpIfFalse a b) ∧ s.value x = 0#64) →
    Host.Core.run Sys2Proof.core k s = .next s

/-- 43_control.md R205, in every operand form: AdjustRelativeBase's words; `rb` gains the operand's value, wrapped;
OVERFLOW only under FAULT. -/
def Obligations.AdjustRelativeBaseAddsToRb : Prop :=
  ∀ (s : State) (a : Operand),
    encode (.adjustRelativeBase a) = [BitVec.ofNat 64 (100 * a.mode.digit + 9), a.raw] ∧
    ∀ x : Resolved, resolve s.rb a = .ok x →
      (s.params.ovfPolicy = .wrap ∨ fits64 (s.rb.toInt + (s.value x).toInt) = true →
        exec (.adjustRelativeBase a) s =
          .next { s with rb := wrap64 (s.rb.toInt + (s.value x).toInt), pc := s.pc + 2#64 }) ∧
      (s.params.ovfPolicy = .fault → fits64 (s.rb.toInt + (s.value x).toInt) = false →
        exec (.adjustRelativeBase a) s = .next (s.raise .overflow))

/-- 43_control.md R207: Halt stops the engine, closes the output and leaves `pc`. -/
def Obligations.HaltEndsRunAndClosesOutput : Prop :=
  encode .halt = [99#64] ∧
  ∀ s : State, exec .halt s = .next { s with state := .halted, outClosed := true } ∧
    ({ s with state := .halted, outClosed := true } : State).waiting = false

/-- 30_encoding.md R123: the pseudo-instructions' effects, sizes and the words of `Clr`. -/
def Obligations.PseudoInstructionsExpand : Prop :=
  (∀ s : State, exec pseudoNop s = .next { s with pc := s.pc + 3#64 }) ∧
  (∀ (s : State) (o : Operand) (y : Resolved), resolve s.rb o = .ok y →
    exec (pseudoJmp o) s = .next { s with pc := s.value y }) ∧
  (∀ (s : State) (o p : Operand) (x : Resolved) (d : Nat), resolve s.rb o = .ok x → resolveTarget s.rb p = .ok d →
    exec (pseudoMov o p) s = .next { s with mem := s.mem.write d (s.value x), pc := s.pc + 4#64 } ∧
    exec (pseudoClr p) s = .next { s with mem := s.mem.write d 0#64, pc := s.pc + 4#64 }) ∧
  (∀ o p : Operand, (encode (pseudoMov o p)).length = 4 ∧ (encode (pseudoJmp o)).length = 3 ∧
    (encode pseudoNop).length = 3 ∧ (encode (pseudoClr p)).length = 4) ∧
  (∀ v : Word, encode (pseudoClr (.abs v)) = [1102#64, 0#64, 0#64, v] ∧
    encode (pseudoClr (.rel v)) = [21102#64, 0#64, 0#64, v])

/-! ### Frames -/

/-- What Add, Multiply, LessThan and Equals leave unchanged (41_arithmetic.md section 2; 20_memory.md R77): of memory
all but the write operand's cell, of the rest all but `pc`; a fault changes only what its entry writes. -/
def Obligations.ArithmeticFrame : Prop :=
  ∀ (s t : State) (i : Instr) (a b c : Operand),
    i = .add a b c ∨ i = .multiply a b c ∨ i = .lessThan a b c ∨ i = .equals a b c → exec i s = .next t →
    (∀ x : Nat, execStoreAddress i s ≠ some x → t.mem.read x = s.mem.read x) ∧
    t.rb = s.rb ∧ t.inTarget = s.inTarget ∧ t.inQ = s.inQ ∧ t.inClosed = s.inClosed ∧ t.outQ = s.outQ ∧
    t.outDisc = s.outDisc ∧ t.params = s.params ∧
    ((∃ e, t = s.raise e) ∨
      (t.state = s.state ∧ t.outClosed = s.outClosed ∧ t.faultCause = s.faultCause ∧ t.faultPc = s.faultPc ∧
        t.faultWord = s.faultWord ∧ t.faultAddr = s.faultAddr))

/-- What Input's first step, Output, the jumps, AdjustRelativeBase and Halt leave unchanged (42_io.md, 43_control.md):
all of memory, and every register and queue but the one the instruction is for. -/
def Obligations.NonStoringFrame : Prop :=
  ∀ (s t : State) (i : Instr) (a b : Operand),
    i = .input a ∨ i = .output a ∨ i = .jumpIfTrue a b ∨ i = .jumpIfFalse a b ∨ i = .adjustRelativeBase a ∨ i = .halt →
    exec i s = .next t →
    (∀ x : Nat, t.mem.read x = s.mem.read x) ∧
    t.inQ = s.inQ ∧ t.inClosed = s.inClosed ∧ t.outDisc = s.outDisc ∧ t.params = s.params ∧
    (i ≠ .output a → t.outQ = s.outQ) ∧
    (i ≠ .adjustRelativeBase a → t.rb = s.rb) ∧
    (i ≠ .input a → t.inTarget = s.inTarget) ∧
    (i = .input a ∨ i = .halt → t.pc = s.pc) ∧
    ((∃ e, t = s.raise e) ∨
      ((i ≠ .input a → i ≠ .halt → t.state = s.state) ∧ (i ≠ .halt → t.outClosed = s.outClosed) ∧
        t.faultCause = s.faultCause ∧ t.faultPc = s.faultPc ∧ t.faultWord = s.faultWord ∧ t.faultAddr = s.faultAddr))

/-! ### Rules of the whole machine -/

/-- A step stores to at most the one address of its write operand, or of the latch when an Input completes
(20_memory.md R77). -/
def Obligations.StepStoresOnlyToItsTarget : Prop :=
  ∀ s t : State, step s = .next t → ∀ x : Nat, stepStoreAddress s ≠ some x → t.mem.read x = s.mem.read x

/-- Only AdjustRelativeBase writes `rb` (10_state.md section 2, R33). -/
def Obligations.OnlyAdjustRelativeBaseWritesRb : Prop :=
  ∀ s t : State, step s = .next t → t.rb ≠ s.rb → s.state = .running ∧ ∃ a, fetch s = .ok (.adjustRelativeBase a)

/-- Only a completing Input takes from `InQ`, exactly the oldest value; only Output adds to `OutQ`, exactly one value
at the tail; no step touches the host's flags or the parameters (10_state.md section 4; 42_io.md). -/
def Obligations.StepsTouchQueuesOnlyByInputAndOutput : Prop :=
  ∀ s t : State, step s = .next t →
    t.inClosed = s.inClosed ∧ t.outDisc = s.outDisc ∧ t.params = s.params ∧
    (t.inQ = s.inQ ∨ (s.state = .waitingForInput ∧ ∃ v, s.inQ = v :: t.inQ)) ∧
    (t.outQ = s.outQ ∨ (s.state = .running ∧ ∃ a x, fetch s = .ok (.output a) ∧ resolve s.rb a = .ok x ∧
      t.outQ = s.outQ ++ [s.value x]))

/-- Where `pc` goes in every step that does not fault (40_execution_cycle.md R145, 42_io.md R181): on by the
instruction's length, which never passes `MAX_ADDR`, or to the jump's target; Halt and Input's first step leave it;
Input's second step, in the states of the invariant, moves it on by 2. -/
def Obligations.PcMovesByLengthOrJump : Prop :=
  (∀ (s t : State) (i : Instr), s.state = .running → fetch s = .ok i → exec i s = .next t → t.state ≠ .faulted →
    (i = .halt → t.pc = s.pc) ∧
    (∀ a, i = .input a → t.pc = s.pc) ∧
    (∀ a b, i = .jumpIfTrue a b ∨ i = .jumpIfFalse a b →
      (t.pc.toInt = s.pc.toInt + 3 ∧ t.pc.toInt ≤ maxAddr) ∨
        ∃ y, resolve s.rb b = .ok y ∧ t.pc = s.value y) ∧
    (i ≠ .halt → (∀ a, i ≠ .input a) → (∀ a b, i ≠ .jumpIfTrue a b) → (∀ a b, i ≠ .jumpIfFalse a b) →
      t.pc.toInt = s.pc.toInt + i.length ∧ t.pc.toInt ≤ maxAddr)) ∧
  ∀ s t : State, s.Inv → s.state = .waitingForInput → step s = .next t → t.state ≠ .faulted →
    t.pc.toInt = s.pc.toInt + 2 ∧ t.pc.toInt ≤ maxAddr

/-- 40_execution_cycle.md R141: the initial state and the transitions of the state machine, row by row. Decode faults
in the opcode word or the successor (`fetch`) or in an operand address (`firstAddressFault`); a step that neither
faults nor blocks keeps RUNNING, and one is sure where no sum or product can fault and the output is connected with
room. -/
def Obligations.StateMachineTransitions : Prop :=
  (∀ image seed params, (buildEngine image seed params).state = .running) ∧
  ∀ s : State,
    (∀ (i : Instr) (t : State), s.state = .running → fetch s = .ok i → step s = .next t →
      t.state = .faulted ∨
      (t.state = .waitingForInput ∧ ∃ a, i = .input a) ∨
      (t.state = .halted ∧ i = .halt) ∨
      (t.state = .running ∧ i ≠ .halt ∧ ∀ a, i ≠ .input a)) ∧
    (∀ i : Instr, s.state = .running → fetch s = .ok i → i ≠ .halt → (∀ a, i ≠ .input a) →
      firstAddressFault s.rb i.operands = none → s.params.ovfPolicy = .wrap → s.outDisc = false →
      (∀ n, s.params.outCap = some n → s.outQ.length < n) → ∃ t, step s = .next t ∧ t.state = .running) ∧
    (∀ (a : Operand) (d : Nat), s.state = .running → fetch s = .ok (.input a) → resolveTarget s.rb a = .ok d →
      ∃ t, step s = .next t ∧ t.state = .waitingForInput) ∧
    (s.state = .running → fetch s = .ok .halt → ∃ t, step s = .next t ∧ t.state = .halted) ∧
    (∀ e : Trap, s.state = .running → fetch s = .error e → ∃ t, step s = .next t ∧ t.state = .faulted) ∧
    (∀ (i : Instr) (e : Trap), s.state = .running → fetch s = .ok i → firstAddressFault s.rb i.operands = some e →
      ∃ t, step s = .next t ∧ t.state = .faulted) ∧
    (∀ (a : Operand) (x : Resolved) (n : Nat), s.state = .running → fetch s = .ok (.output a) →
      resolve s.rb a = .ok x → s.params.outCap = some n → s.outQ.length = n → s.outDisc = false →
      ∀ t, step s ≠ .next t) ∧
    (s.state = .waitingForInput → s.inQ ≠ [] → ∃ t, step s = .next t ∧ t.state = .running) ∧
    (s.state = .waitingForInput → s.inQ = [] → s.inClosed = true → ∃ t, step s = .next t ∧ t.state = .faulted) ∧
    (s.state = .waitingForInput → s.inQ = [] → s.inClosed = false → ∀ t, step s ≠ .next t) ∧
    (s.state = .halted ∨ s.state = .faulted → ∀ t, step s ≠ .next t)

/-- Where the engine has no step, the model answers an outcome of its own name, and each name only there (log 3, the
model's choice, for 40_execution_cycle.md sections 1 and 2); no step is refused. -/
def Obligations.StepsNotTakenAreAnsweredByName : Prop :=
  ∀ s : State,
    (s.state = .halted → step s = .fault .engineHalted) ∧
    (s.state = .faulted → step s = .fault .engineFaulted) ∧
    (s.state = .waitingForInput → s.inQ = [] → s.inClosed = false → step s = .fault .inputBlocked) ∧
    (∀ (a : Operand) (x : Resolved) (n : Nat), resolve s.rb a = .ok x → s.outDisc = false →
      s.params.outCap = some n → s.outQ.length = n →
      exec (.output a) s = .fault .outputBlocked ∧
        (s.state = .running → fetch s = .ok (.output a) → step s = .fault .outputBlocked)) ∧
    (step s = .fault .engineHalted → s.state = .halted) ∧
    (step s = .fault .engineFaulted → s.state = .faulted) ∧
    (step s = .fault .inputBlocked → s.state = .waitingForInput ∧ s.inQ = [] ∧ s.inClosed = false) ∧
    (step s = .fault .outputBlocked → s.state = .running ∧ s.outDisc = false ∧
      (∃ n, s.params.outCap = some n ∧ n ≤ s.outQ.length) ∧
      ∃ a x, fetch s = .ok (.output a) ∧ resolve s.rb a = .ok x) ∧
    ∀ r, step s ≠ .refused r

/-- 40_execution_cycle.md R146: a live engine takes a step but in exactly two situations, and is never refused. The
premise is the invariant of the output queue. -/
def Obligations.LiveEngineBlocksInExactlyTwoSituations : Prop :=
  ∀ s : State, s.state = .running ∨ s.state = .waitingForInput →
    (∀ n, s.params.outCap = some n → s.outQ.length ≤ n) →
    (∀ r, step s ≠ .refused r) ∧
    ((¬ ∃ t, step s = .next t) ↔
      (s.state = .waitingForInput ∧ s.inQ = [] ∧ s.inClosed = false) ∨
      (s.state = .running ∧ s.outDisc = false ∧ s.params.outCap = some s.outQ.length ∧
        ∃ a x, fetch s = .ok (.output a) ∧ resolve s.rb a = .ok x))

/-- 60_exceptions.md R229: fault entry from any step: it is a raise, whose cause code is the raise's own; what it
records, and that nothing else changes. The address recorded for ADDRESS is `pc`, or the successor of the instruction
at `pc`, or the exact address of one of its operands. -/
def Obligations.FaultEntryIsPrecise : Prop :=
  (∀ (s : State) (e : Trap), (s.raise e).faultCause.code = trapCode e) ∧
  ∀ s t : State, step s = .next t → t.state = .faulted →
    (∃ e : Trap, t = s.raise e) ∧ t.faultCause ≠ .none ∧ t.faultPc = s.pc ∧
    t.faultWord = (if 0 ≤ s.pc.toInt ∧ s.pc.toInt ≤ maxAddr then s.mem.read s.pc.toNat else 0#64) ∧
    (t.faultCause ≠ .address → t.faultAddr = 0#128) ∧
    (t.faultCause = .address →
      (t.faultAddr.toInt < 0 ∨ (maxAddr : Int) < t.faultAddr.toInt) ∧
      (t.faultAddr.toInt = s.pc.toInt ∨
        (∃ h, decodeHead t.faultWord = .ok h ∧ t.faultAddr.toInt = s.pc.toInt + h.op.arity + 1) ∨
        ∃ i, fetch s = .ok i ∧ ∃ o ∈ i.operands, effectiveAddress s.rb o = some t.faultAddr.toInt)) ∧
    t.outClosed = true ∧ t.waiting = false ∧
    t.mem = s.mem ∧ t.pc = s.pc ∧ t.rb = s.rb ∧ t.inTarget = s.inTarget ∧ t.inQ = s.inQ ∧ t.outQ = s.outQ ∧
    t.inClosed = s.inClosed ∧ t.outDisc = s.outDisc

/-- Which instruction can raise which fault (60_exceptions.md section 1, R222 to R227): at decode only causes 1 to 5,
in execution the causes of the instruction's row, OVERFLOW never under WRAP, and INPUT_DISCONNECTED from the wait
only. -/
def Obligations.FaultCausesByInstruction : Prop :=
  ∀ s t : State, step s = .next t → t.state = .faulted →
    (∀ e, s.state = .running → fetch s = .error e → t.faultCause.code ∈ [1, 2, 3, 4, 5]) ∧
    (∀ i, s.state = .running → fetch s = .ok i →
      mayRaise i t.faultCause = true ∧ t.faultCause ≠ .inputDisconnected) ∧
    (s.state = .waitingForInput → t.faultCause = .inputDisconnected) ∧
    (t.faultCause = .overflow → s.params.ovfPolicy = .fault)

/-- 60_exceptions.md R221: the codes, and that 9 to 15 are never produced. -/
def Obligations.FaultCodes : Prop :=
  FaultCause.none.code = 0 ∧ FaultCause.invalidOpcode.code = 1 ∧ FaultCause.invalidMode.code = 2 ∧
  FaultCause.reservedDigit.code = 3 ∧ FaultCause.writeTarget.code = 4 ∧ FaultCause.address.code = 5 ∧
  FaultCause.inputDisconnected.code = 6 ∧ FaultCause.outputDisconnected.code = 7 ∧ FaultCause.overflow.code = 8 ∧
  ∀ c : FaultCause, c.code ≤ 8

/-- Once a run has ended, no sequence of moves changes anything but the queues and the host's flags: no read, write,
send or receive (43_control.md section 3, 60_exceptions.md section 2). -/
def Obligations.EndedRunsStayEnded : Prop :=
  ∀ (s t : State) (es : List Event), Run s es t → s.ended = true →
    t.state = s.state ∧ t.mem = s.mem ∧ t.pc = s.pc ∧ t.rb = s.rb ∧ t.inTarget = s.inTarget ∧
    t.faultCause = s.faultCause ∧ t.faultPc = s.faultPc ∧ t.faultWord = s.faultWord ∧ t.faultAddr = s.faultAddr ∧
    t.outClosed = s.outClosed ∧ consumedWords es = [] ∧ emittedWords es = []

/-! ### Invariants -/

/-- The invariant holds in the state after reset (70_reset_and_hazards.md section 1). -/
def Obligations.ResetMeetsInvariant : Prop := State.reset.Inv

/-- The invariant holds in every engine BUILD makes (70_reset_and_hazards.md section 1). -/
def Obligations.BuildMeetsInvariant : Prop :=
  ∀ (image : List Word) (seed : Option Word) (params : Params) (s : State) (r : Reply),
    hostMove (.build image seed params) none = .done s r → s.Inv

/-- Every engine step keeps the invariant: canonical memory, the output within `OUT_CAP`, the latch an address and, in
the wait, the target of the Input at `pc`, the output closed exactly when ended, the fault record (10_state.md
sections 2 to 5). -/
def Obligations.StepKeepsInvariant : Prop := ∀ s t : State, s.Inv → step s = .next t → t.Inv

/-- Every host move keeps the invariant (60_exceptions.md section 5). -/
def Obligations.HostMovesKeepInvariant : Prop :=
  ∀ (m : HostMove) (s t : State) (r : Reply), s.Inv → hostMove m (some s) = .done t r → t.Inv

/-- Under every interleaving of engine and host, an engine meets the invariant, and its step is never refused
(10_state.md section 8; 40_execution_cycle.md R147). -/
def Obligations.ReachableStatesMeetInvariant : Prop :=
  ∀ s : State, Reachable s → s.Inv ∧ ∀ r, step s ≠ .refused r

/-! ### Queues, the waiting signal and the host -/

/-- 10_state.md R42: both queues are first-in first-out, without loss or duplication, in every run of moves: what was
in `InQ` and was pushed is what was consumed and is still there, in order; so for `OutQ`. -/
def Obligations.QueuesAreFifoInEveryRun : Prop :=
  ∀ (s t : State) (es : List Event), Run s es t →
    s.inQ ++ pushedWords es = consumedWords es ++ t.inQ ∧
    s.outQ ++ emittedWords es = poppedWords es ++ t.outQ

/-- A push, and a pop that returns a word, neither help nor hinder an engine step that is enabled: taken in either
order they lead to the same state (10_state.md section 8; 20_memory.md R83). -/
def Obligations.QueueMovesCommuteWithEngineSteps : Prop :=
  (∀ (s s' t : State) (v : Word), step s = .next s' → s.inPush v = .done t .none →
    ∃ t', step t = .next t' ∧ s'.inPush v = .done t' .none) ∧
  (∀ (s s' t : State) (v : Word), step s = .next s' → s.outPop = .done t (.word v) →
    ∃ t', step t = .next t' ∧ s'.outPop = .done t' (.word v))

/-- A wait on an empty open queue ends one engine step after the host's answer (60_exceptions.md R239, R246): a push
is delivered to the Input's target, a close faults the Input. -/
def Obligations.WaitEndsOneStepAfterHostAnswers : Prop :=
  ∀ s : State, s.Inv → s.state = .waitingForInput → s.inQ = [] → s.inClosed = false →
    (∀ v : Word, ∃ t u, s.inPush v = .done t .none ∧ step t = .next u ∧ u.state = .running ∧
      u.mem.read s.inTarget = v ∧ u.inQ = [] ∧ u.pc.toInt = s.pc.toInt + 2) ∧
    ∃ t u, s.inClose = .done t .none ∧ step t = .next u ∧ u.state = .faulted ∧
      u.faultCause = .inputDisconnected ∧ u.faultPc = s.pc ∧ u.faultWord = s.mem.read s.pc.toNat

/-- `waiting` rises only at an Input's first step, stays through every host move, and falls in the one engine step
that consumes the value or faults, which outputs nothing (42_io.md R183, which the spec derives from R180 and
R181). -/
def Obligations.WaitingSpansExactlyTheInput : Prop :=
  (∀ s t : State, step s = .next t → s.waiting = false → t.waiting = true →
    s.state = .running ∧ ∃ a, fetch s = .ok (.input a) ∧ resolveTarget s.rb a = .ok t.inTarget) ∧
  (∀ (m : Move) (s t : State) (r : Reply), s.waiting = true → systemMove m s = .done t r →
    (m ≠ .engine ∧ t.waiting = true) ∨
    (m = .engine ∧ t.waiting = false ∧ t.outQ = s.outQ ∧
      ((t.state = .running ∧ ∃ v, s.inQ = v :: t.inQ) ∨
        (t.state = .faulted ∧ t.faultCause = .inputDisconnected ∧ s.inQ = []))))

/-- No host move reaches memory, `pc`, `rb`, the latch, the run state, the fault registers, the engine's own flag or
the parameters (60_exceptions.md section 5, R241). -/
def Obligations.HostCannotReachEngineState : Prop :=
  ∀ (m : HostMove) (s t : State) (r : Reply), hostMove m (some s) = .done t r →
    t.mem = s.mem ∧ t.pc = s.pc ∧ t.rb = s.rb ∧ t.inTarget = s.inTarget ∧ t.state = s.state ∧
    t.faultCause = s.faultCause ∧ t.faultPc = s.faultPc ∧ t.faultWord = s.faultWord ∧ t.faultAddr = s.faultAddr ∧
    t.outClosed = s.outClosed ∧ t.params = s.params

/-- The host's moves, row by row (60_exceptions.md section 5): when each is enabled, what it does and returns. That a
move which waits for the engine is `blocked` and one the interface lacks is `noMove` is log 10. -/
def Obligations.HostMoveTable : Prop :=
  (∀ image seed params, image.length ≤ maxAddr + 1 → params.wf = true →
    hostMove (.build image seed params) none = .done (buildEngine image seed params) .none) ∧
  ∀ s : State,
    (∀ v, s.inClosed = false → hostMove (.inPush v) (some s) = .done { s with inQ := s.inQ ++ [v] } .none) ∧
    (∀ v, s.inClosed = true → hostMove (.inPush v) (some s) = .noMove) ∧
    (s.inClosed = false → hostMove .inClose (some s) = .done { s with inClosed := true } .none) ∧
    (s.inClosed = true → hostMove .inClose (some s) = .noMove) ∧
    (∀ v q, s.outDisc = false → s.outQ = v :: q → hostMove .outPop (some s) = .done { s with outQ := q } (.word v)) ∧
    (s.outDisc = false → s.outQ = [] → s.outClosed = true → hostMove .outPop (some s) = .done s .endOfStream) ∧
    (s.outDisc = false → s.outQ = [] → s.outClosed = false → hostMove .outPop (some s) = .blocked) ∧
    (s.outDisc = true → hostMove .outPop (some s) = .noMove) ∧
    (s.outDisc = false → hostMove .outDisconnect (some s) = .done { s with outDisc := true } .none) ∧
    (s.outDisc = true → hostMove .outDisconnect (some s) = .noMove) ∧
    (∀ n, n ≤ 5 → ∃ v, s.statusRegister n = some v ∧ hostMove (.readReg n) (some s) = .done s (.word v)) ∧
    (∀ n, 5 < n → hostMove (.readReg n) (some s) = .noMove) ∧
    (∀ image seed params, hostMove (.build image seed params) (some s) = .noMove)

/-- 10_state.md R43: the six status registers, field by field and at reset; every bit not listed reads 0. -/
def Obligations.StatusRegistersMirrorState : Prop :=
  (∀ n image seed params, n ≤ 5 → (buildEngine image seed params).statusRegister n = some 0#64) ∧
  ∀ s : State,
    (∃ w : Word, s.statusRegister 0 = some w ∧ w.toNat % 4 = s.state.code ∧
      w.getLsbD 2 = decide (s.state = .waitingForInput) ∧ w.getLsbD 3 = s.inClosed ∧ w.getLsbD 4 = s.outClosed ∧
      w.getLsbD 5 = s.outDisc ∧ ∀ k, 6 ≤ k → w.getLsbD k = false) ∧
    (∃ w : Word, s.statusRegister 1 = some w ∧ w.toNat = s.faultCause.code ∧ ∀ k, 4 ≤ k → w.getLsbD k = false) ∧
    s.statusRegister 2 = some s.faultPc ∧ s.statusRegister 3 = some s.faultWord ∧
    (∃ lo hi : Word, s.statusRegister 4 = some lo ∧ s.statusRegister 5 = some hi ∧
      s.faultAddr.toNat = hi.toNat * 18446744073709551616 + lo.toNat) ∧
    (∀ n, 5 < n → s.statusRegister n = none) ∧
    (RunState.running.code = 0 ∧ RunState.waitingForInput.code = 1 ∧ RunState.halted.code = 2 ∧
      RunState.faulted.code = 3)

/-- 70_reset_and_hazards.md R261, with two clauses of the model's own: the parameters are BUILD's and are held in the
state (log 2), and a seed on an empty image stands at address 0 (log 17). BUILD is enabled for an image of at most
`MAX_ADDR` + 1 words; memory reads the image, with the seed at address 0, and 0 elsewhere; every register is 0, the
queues are empty, the flags clear. -/
def Obligations.BuildLoadsImageAndClearsState : Prop :=
  ∀ (image : List Word) (seed : Option Word) (params : Params), image.length ≤ maxAddr + 1 → params.wf = true →
    ∃ s, hostMove (.build image seed params) none = .done s .none ∧
      (∀ i, s.mem.read i =
        match i, seed with
        | 0, some v => v
        | i, _ => if i < image.length then image.getD i 0#64 else 0#64) ∧
      s.pc = 0#64 ∧ s.rb = 0#64 ∧ s.state = .running ∧ s.inTarget = 0 ∧ s.faultCause = .none ∧ s.faultPc = 0#64 ∧
      s.faultWord = 0#64 ∧ s.faultAddr = 0#128 ∧ s.inQ = [] ∧ s.outQ = [] ∧ s.inClosed = false ∧
      s.outClosed = false ∧ s.outDisc = false ∧ s.params = params

/-- 70_reset_and_hazards.md R265, which the spec derives from R261 and R118: an image whose word 0 is no legal opcode
word, the empty image among them, faults at the first step. -/
def Obligations.IllegalFirstWordFaultsAtFirstStep : Prop :=
  (∀ (image : List Word) (params : Params) (f : HeadFault), image.length ≤ maxAddr + 1 →
    decodeHead (image.getD 0 0#64) = .error f →
    step (buildEngine image none params) = .next ((buildEngine image none params).raise (.head f))) ∧
  (∀ params : Params, ∃ t, step (buildEngine [] none params) = .next t ∧ t.state = .faulted ∧
    t.faultCause = .invalidOpcode ∧ t.faultPc = 0#64 ∧ t.faultWord = 0#64)

/-- 70_reset_and_hazards.md R260 for the empty image: every value of the state after reset, and the status registers.
That reset is the empty image with the spec's own parameters is the model's choice (logs 2 and 7). -/
def Obligations.ResetValues : Prop :=
  (∀ a, State.reset.mem.read a = 0#64) ∧ State.reset.pc = 0#64 ∧ State.reset.rb = 0#64 ∧
  State.reset.state = .running ∧ State.reset.waiting = false ∧ State.reset.inTarget = 0 ∧
  State.reset.faultCause = .none ∧ State.reset.faultPc = 0#64 ∧ State.reset.faultWord = 0#64 ∧
  State.reset.faultAddr = 0#128 ∧ State.reset.inQ = [] ∧ State.reset.outQ = [] ∧ State.reset.inClosed = false ∧
  State.reset.outClosed = false ∧ State.reset.outDisc = false ∧
  (∀ n, n ≤ 5 → State.reset.statusRegister n = some 0#64) ∧
  hostMove (.build [] none Params.default) none = .done State.reset .none

/-- What a batch run returns (60_exceptions.md section 5): a run from the built engine that pushed the inputs in
order, with the engine ended and drained; the outputs returned are the words popped, which are all the words emitted,
in order. The run is one interleaving (log 15, the model's choice). -/
def Obligations.BatchRunReturnsAnEndedDrainedEngine : Prop :=
  ∀ (fuel : Nat) (image : List Word) (seed : Option Word) (params : Params) (inputs out : List Word) (s : State),
    batchRun fuel image seed params inputs = some (s, out) →
    Reachable s ∧ s.ended = true ∧ s.outQ = [] ∧ s.inClosed = true ∧
    ∃ es, Run (buildEngine image seed params) es s ∧ pushedWords es = inputs ∧ out = poppedWords es ∧
      out = emittedWords es

/-! ### Memory -/

/-- 20_memory.md R73: a write is read back and changes no other cell. The premise is the canonical form, which every
step keeps. -/
def Obligations.MemoryReadsLastWrite : Prop :=
  ∀ (m : Memory) (a : Nat) (v : Word), m.wf = true → a ≤ maxAddr →
    (m.write a v).read a = v ∧ ∀ b, b ≠ a → (m.write a v).read b = m.read b

/-- A cell reads the last word written to it, else its word of the image, else 0 (20_memory.md section 1, R72), and
loading and every write keep the model's canonical form (log 1). -/
def Obligations.CellsReadLastWriteElseImageElseZero : Prop :=
  (∀ (image : List Word) (writes : List (Nat × Word)), image.length ≤ maxAddr + 1 → (∀ w ∈ writes, w.1 ≤ maxAddr) →
    let m := writes.foldl (fun m w => m.write w.1 w.2) (Memory.ofImage 0 image)
    m.wf = true ∧
    ∀ a : Nat, m.read a =
      match writes.reverse.find? (fun w => w.1 = a) with
      | some w => w.2
      | none => if a < image.length then image.getD a 0#64 else 0#64) ∧
  ∀ (m : Memory) (a : Nat) (v : Word), m.wf = true → a ≤ maxAddr → (m.write a v).wf = true

/-- Equal memories are equal data: canonical memories that read alike are one list, so that a cell written with 0
cannot be told from a cell never written (20_memory.md section 1, R74). -/
def Obligations.CanonicalMemoriesThatReadAlikeAreEqual : Prop :=
  ∀ m m' : Memory, m.wf = true → m'.wf = true → (∀ a, a ≤ maxAddr → m.read a = m'.read a) → m = m'
end

