-- ==== Sys2Proof/Laws/Memory.lean ====
section
/-! SUPPORT. The laws of memory: read after write, the canonical form, and that canonical memories that read alike are
equal (spec 20_memory.md R70 to R74). -/

namespace Sys2Proof.Machine

@[simp] theorem Memory.read_nil (a : Nat) : Memory.read [] a = 0#64 := rfl

theorem Memory.read_cons (a b : Nat) (w : Word) (m : Memory) :
    Memory.read ((b, w) :: m) a = if a = b then w else Memory.read m a := rfl

/-- A write leaves every other address alone, whatever the list. -/
theorem Memory.read_write_ne (m : Memory) (a b : Nat) (v : Word) (h : b ≠ a) :
    (m.write a v).read b = m.read b := by
  induction m with
  | nil =>
    by_cases hv : v = 0#64 <;> simp [Memory.write, Memory.read_cons, hv, h]
  | cons c m ih =>
    obtain ⟨k, w⟩ := c
    by_cases hlt : a < k
    · by_cases hv : v = 0#64 <;> simp [Memory.write, Memory.read_cons, hlt, hv, h]
    · by_cases heq : a = k
      · subst heq
        by_cases hv : v = 0#64 <;> simp [Memory.write, Memory.read_cons, hv, h]
      · simp [Memory.write, Memory.read_cons, hlt, heq, ih]

/-- The first address of a list, if any, is above `a`. -/
def Memory.startsAbove (a : Nat) : Memory → Prop
  | [] => True
  | (b, _) :: _ => a < b

theorem Memory.sorted_cons (b : Nat) (w : Word) (m : Memory) :
    Memory.sorted ((b, w) :: m) = true ↔ Memory.startsAbove b m ∧ m.sorted = true := by
  cases m with
  | nil => simp [Memory.sorted, Memory.startsAbove]
  | cons c m => simp [Memory.sorted, Memory.startsAbove]

theorem Memory.startsAbove_mono {a b : Nat} (h : a ≤ b) (m : Memory) :
    Memory.startsAbove b m → Memory.startsAbove a m := by
  cases m with
  | nil => exact id
  | cons c m => simp only [Memory.startsAbove]; omega

theorem Memory.read_below {m : Memory} {b : Nat} (hs : m.sorted = true) (hb : Memory.startsAbove b m) :
    ∀ a, a ≤ b → m.read a = 0#64 := by
  induction m generalizing b with
  | nil => simp
  | cons c m ih =>
    obtain ⟨k, w⟩ := c
    intro a ha
    rw [Memory.sorted_cons] at hs
    simp only [Memory.startsAbove] at hb
    rw [Memory.read_cons, if_neg (by omega)]
    exact ih hs.2 (Memory.startsAbove_mono (by omega) m hs.1) a ha

/-- A written address reads the word written, in a list whose addresses rise. -/
theorem Memory.read_write_self {m : Memory} (hs : m.sorted = true) (a : Nat) (v : Word) :
    (m.write a v).read a = v := by
  induction m with
  | nil => by_cases hv : v = 0#64 <;> simp [Memory.write, Memory.read_cons, hv]
  | cons c m ih =>
    obtain ⟨k, w⟩ := c
    have hs' := (Memory.sorted_cons k w m).1 hs
    by_cases hlt : a < k
    · by_cases hv : v = 0#64
      · have h0 : Memory.read m a = 0#64 :=
          Memory.read_below hs'.2 hs'.1 a (by omega)
        simp [Memory.write, Memory.read_cons, hlt, hv, h0, Nat.ne_of_lt hlt]
      · simp [Memory.write, Memory.read_cons, hlt, hv]
    · by_cases heq : a = k
      · subst heq
        by_cases hv : v = 0#64
        · have h0 : Memory.read m a = 0#64 := Memory.read_below hs'.2 hs'.1 a (Nat.le_refl a)
          simp [Memory.write, hv, h0]
        · simp [Memory.write, Memory.read_cons, hv]
      · simp [Memory.write, Memory.read_cons, hlt, heq, ih hs'.2]

theorem Memory.startsAbove_write {m : Memory} {b a : Nat} (v : Word) (h : Memory.startsAbove b m)
    (hs : m.sorted = true) (hba : b < a) : Memory.startsAbove b (m.write a v) := by
  cases m with
  | nil => by_cases hv : v = 0#64 <;> simp [Memory.write, Memory.startsAbove, hv, hba]
  | cons c m =>
    obtain ⟨k, w⟩ := c
    have hm := Memory.startsAbove_mono (Nat.le_of_lt h) m ((Memory.sorted_cons k w m).1 hs).1
    simp only [Memory.startsAbove] at h
    by_cases hlt : a < k
    · by_cases hv : v = 0#64 <;> simp [Memory.write, Memory.startsAbove, hlt, hv, h, hba]
    · by_cases heq : a = k
      · by_cases hv : v = 0#64
        · simpa [Memory.write, heq, hv] using hm
        · simp [Memory.write, Memory.startsAbove, heq, hv, h]
      · simp [Memory.write, Memory.startsAbove, hlt, heq, h]

theorem Memory.sorted_write {m : Memory} (hs : m.sorted = true) (a : Nat) (v : Word) :
    (m.write a v).sorted = true := by
  induction m with
  | nil => by_cases hv : v = 0#64 <;> simp [Memory.write, Memory.sorted, hv]
  | cons c m ih =>
    obtain ⟨k, w⟩ := c
    have hs' := (Memory.sorted_cons k w m).1 hs
    by_cases hlt : a < k
    · by_cases hv : v = 0#64
      · simpa [Memory.write, hlt, hv] using hs
      · simpa [Memory.write, hlt, hv] using (Memory.sorted_cons a v ((k, w) :: m)).2 ⟨hlt, hs⟩
    · by_cases heq : a = k
      · subst heq
        by_cases hv : v = 0#64
        · simpa [Memory.write, hv] using hs'.2
        · simpa [Memory.write, hv] using (Memory.sorted_cons a v m).2 hs'
      · simp only [Memory.write, hlt, heq, if_false]
        exact (Memory.sorted_cons k w _).2 ⟨Memory.startsAbove_write v hs'.1 hs'.2 (by omega), ih hs'.2⟩

theorem Memory.mem_write {m : Memory} {a : Nat} {v : Word} {c : Nat × Word} (h : c ∈ m.write a v) :
    c ∈ m ∨ (c = (a, v) ∧ v ≠ 0#64) := by
  induction m with
  | nil =>
    by_cases hv : v = 0#64
    · simp [Memory.write, hv] at h
    · exact .inr ⟨by simpa [Memory.write, hv] using h, hv⟩
  | cons d m ih =>
    obtain ⟨k, w⟩ := d
    by_cases hlt : a < k
    · by_cases hv : v = 0#64
      · exact .inl (by simpa [Memory.write, hlt, hv] using h)
      · simp only [Memory.write, hlt, hv, if_true, if_false, List.mem_cons] at h ⊢
        tauto
    · by_cases heq : a = k
      · by_cases hv : v = 0#64
        · simp only [Memory.write, heq, hv, if_true, if_false, Nat.lt_irrefl, List.mem_cons] at h ⊢
          tauto
        · simp only [Memory.write, heq, hv, if_true, if_false, Nat.lt_irrefl, List.mem_cons] at h ⊢
          subst heq; tauto
      · simp only [Memory.write, hlt, heq, if_false, List.mem_cons] at h ⊢
        rcases h with h | h
        · exact .inl (.inl h)
        · rcases ih h with h | h <;> tauto

theorem Memory.wf_iff (m : Memory) :
    m.wf = true ↔ m.sorted = true ∧ ∀ c ∈ m, c.1 ≤ maxAddr ∧ c.2 ≠ 0#64 := by
  simp [Memory.wf]

/-- A write to an address of the machine keeps the canonical form. -/
theorem Memory.wf_write {m : Memory} (h : m.wf = true) {a : Nat} (ha : a ≤ maxAddr) (v : Word) :
    (m.write a v).wf = true := by
  rw [Memory.wf_iff] at h ⊢
  refine ⟨Memory.sorted_write h.1 a v, fun c hc => ?_⟩
  rcases Memory.mem_write hc with hc | ⟨rfl, hv⟩
  · exact h.2 c hc
  · exact ⟨ha, hv⟩

theorem Memory.wf_nil : Memory.wf [] = true := rfl

/-- Writing a list of words that ends in the address space keeps the canonical form. -/
theorem Memory.wf_writeAll {m : Memory} (h : m.wf = true) (ws : List Word) (a : Nat)
    (ha : a + ws.length ≤ maxAddr + 1) : (m.writeAll a ws).wf = true := by
  induction ws generalizing m a with
  | nil => exact h
  | cons v vs ih =>
    simp only [List.length_cons] at ha
    exact ih (Memory.wf_write h (by omega) v) (a + 1) (by omega)

theorem Memory.ofImage_above (vs : List Word) (a b : Nat) (h : b < a) :
    Memory.startsAbove b (Memory.ofImage a vs) := by
  induction vs generalizing a with
  | nil => trivial
  | cons v vs ih =>
    by_cases hv : v = 0#64
    · simpa [Memory.ofImage, hv] using ih (a + 1) (by omega)
    · simpa [Memory.ofImage, hv, Memory.startsAbove] using h

/-- The image's memory is in the canonical form. -/
theorem Memory.wf_ofImage (vs : List Word) (a : Nat) (h : a + vs.length ≤ maxAddr + 1) :
    (Memory.ofImage a vs).wf = true := by
  induction vs generalizing a with
  | nil => rfl
  | cons v vs ih =>
    simp only [List.length_cons] at h
    have hrec := ih (a + 1) (by omega)
    by_cases hv : v = 0#64
    · simpa [Memory.ofImage, hv] using hrec
    · rw [Memory.wf_iff] at hrec ⊢
      simp only [Memory.ofImage, hv, if_false, Memory.sorted_cons, List.mem_cons, forall_eq_or_imp]
      exact ⟨⟨Memory.ofImage_above vs (a + 1) a (by omega), hrec.1⟩, ⟨by omega, hv⟩, hrec.2⟩

/-- The image's memory reads the image's words and 0 elsewhere. -/
theorem Memory.read_ofImage (vs : List Word) (a b : Nat) :
    (Memory.ofImage a vs).read b = if a ≤ b then vs.getD (b - a) 0#64 else 0#64 := by
  induction vs generalizing a with
  | nil => simp [Memory.ofImage]
  | cons v vs ih =>
    have hcons : (if a ≤ b then (v :: vs).getD (b - a) 0#64 else 0#64)
        = if b = a then v else if a + 1 ≤ b then vs.getD (b - (a + 1)) 0#64 else 0#64 := by
      by_cases h1 : b = a
      · simp [h1]
      · by_cases h2 : a ≤ b
        · obtain ⟨k, rfl⟩ : ∃ k, b = a + 1 + k := ⟨b - (a + 1), by omega⟩
          have e1 : a + 1 + k - a = k + 1 := by omega
          have e2 : a + 1 + k - (a + 1) = k := by omega
          simp [h2, h1, e1, e2]
        · simp [h1, h2, show ¬ (a + 1 ≤ b) by omega]
    rw [hcons]
    by_cases hv : v = 0#64
    · simp only [Memory.ofImage, hv, if_true, ih]
      by_cases h1 : b = a
      · simp [h1]
      · simp [h1]
    · simp only [Memory.ofImage, hv, if_false, Memory.read_cons, ih]

end Sys2Proof.Machine
end

