-- ==== Sys2Proof/Laws/State.lean ====
section
/-! SUPPORT. One lemma per field per named update of State, so that no proof unfolds a record update. -/

namespace Sys2Proof.Machine

variable (s : State)

@[simp] theorem State.raise_mem (t : Trap) : (s.raise t).mem = s.mem := rfl
@[simp] theorem State.raise_pc (t : Trap) : (s.raise t).pc = s.pc := rfl
@[simp] theorem State.raise_rb (t : Trap) : (s.raise t).rb = s.rb := rfl
@[simp] theorem State.raise_state (t : Trap) : (s.raise t).state = .faulted := rfl
@[simp] theorem State.raise_inTarget (t : Trap) : (s.raise t).inTarget = s.inTarget := rfl
@[simp] theorem State.raise_faultCause (t : Trap) : (s.raise t).faultCause = t.cause := rfl
@[simp] theorem State.raise_faultPc (t : Trap) : (s.raise t).faultPc = s.pc := rfl
@[simp] theorem State.raise_faultWord (t : Trap) : (s.raise t).faultWord = s.wordAtPc := rfl
@[simp] theorem State.raise_faultAddr (t : Trap) : (s.raise t).faultAddr = BitVec.ofInt 128 t.addr := rfl
@[simp] theorem State.raise_inQ (t : Trap) : (s.raise t).inQ = s.inQ := rfl
@[simp] theorem State.raise_inClosed (t : Trap) : (s.raise t).inClosed = s.inClosed := rfl
@[simp] theorem State.raise_outQ (t : Trap) : (s.raise t).outQ = s.outQ := rfl
@[simp] theorem State.raise_outClosed (t : Trap) : (s.raise t).outClosed = true := rfl
@[simp] theorem State.raise_outDisc (t : Trap) : (s.raise t).outDisc = s.outDisc := rfl
@[simp] theorem State.raise_params (t : Trap) : (s.raise t).params = s.params := rfl

@[simp] theorem State.advance_mem (n : Nat) : (s.advance n).mem = s.mem := rfl
@[simp] theorem State.advance_pc (n : Nat) : (s.advance n).pc = s.pc + BitVec.ofNat 64 n := rfl
@[simp] theorem State.advance_rb (n : Nat) : (s.advance n).rb = s.rb := rfl
@[simp] theorem State.advance_state (n : Nat) : (s.advance n).state = s.state := rfl
@[simp] theorem State.advance_inTarget (n : Nat) : (s.advance n).inTarget = s.inTarget := rfl
@[simp] theorem State.advance_faultCause (n : Nat) : (s.advance n).faultCause = s.faultCause := rfl
@[simp] theorem State.advance_faultPc (n : Nat) : (s.advance n).faultPc = s.faultPc := rfl
@[simp] theorem State.advance_faultWord (n : Nat) : (s.advance n).faultWord = s.faultWord := rfl
@[simp] theorem State.advance_faultAddr (n : Nat) : (s.advance n).faultAddr = s.faultAddr := rfl
@[simp] theorem State.advance_inQ (n : Nat) : (s.advance n).inQ = s.inQ := rfl
@[simp] theorem State.advance_inClosed (n : Nat) : (s.advance n).inClosed = s.inClosed := rfl
@[simp] theorem State.advance_outQ (n : Nat) : (s.advance n).outQ = s.outQ := rfl
@[simp] theorem State.advance_outClosed (n : Nat) : (s.advance n).outClosed = s.outClosed := rfl
@[simp] theorem State.advance_outDisc (n : Nat) : (s.advance n).outDisc = s.outDisc := rfl
@[simp] theorem State.advance_params (n : Nat) : (s.advance n).params = s.params := rfl

@[simp] theorem State.jump_mem (w : Word) : (s.jump w).mem = s.mem := rfl
@[simp] theorem State.jump_pc (w : Word) : (s.jump w).pc = w := rfl
@[simp] theorem State.jump_rb (w : Word) : (s.jump w).rb = s.rb := rfl
@[simp] theorem State.jump_state (w : Word) : (s.jump w).state = s.state := rfl
@[simp] theorem State.jump_inTarget (w : Word) : (s.jump w).inTarget = s.inTarget := rfl
@[simp] theorem State.jump_faultCause (w : Word) : (s.jump w).faultCause = s.faultCause := rfl
@[simp] theorem State.jump_faultPc (w : Word) : (s.jump w).faultPc = s.faultPc := rfl
@[simp] theorem State.jump_faultWord (w : Word) : (s.jump w).faultWord = s.faultWord := rfl
@[simp] theorem State.jump_faultAddr (w : Word) : (s.jump w).faultAddr = s.faultAddr := rfl
@[simp] theorem State.jump_inQ (w : Word) : (s.jump w).inQ = s.inQ := rfl
@[simp] theorem State.jump_inClosed (w : Word) : (s.jump w).inClosed = s.inClosed := rfl
@[simp] theorem State.jump_outQ (w : Word) : (s.jump w).outQ = s.outQ := rfl
@[simp] theorem State.jump_outClosed (w : Word) : (s.jump w).outClosed = s.outClosed := rfl
@[simp] theorem State.jump_outDisc (w : Word) : (s.jump w).outDisc = s.outDisc := rfl
@[simp] theorem State.jump_params (w : Word) : (s.jump w).params = s.params := rfl

@[simp] theorem State.store_mem (a : Nat) (v : Word) : (s.store a v).mem = s.mem.write a v := rfl
@[simp] theorem State.store_pc (a : Nat) (v : Word) : (s.store a v).pc = s.pc := rfl
@[simp] theorem State.store_rb (a : Nat) (v : Word) : (s.store a v).rb = s.rb := rfl
@[simp] theorem State.store_state (a : Nat) (v : Word) : (s.store a v).state = s.state := rfl
@[simp] theorem State.store_inTarget (a : Nat) (v : Word) : (s.store a v).inTarget = s.inTarget := rfl
@[simp] theorem State.store_faultCause (a : Nat) (v : Word) : (s.store a v).faultCause = s.faultCause := rfl
@[simp] theorem State.store_faultPc (a : Nat) (v : Word) : (s.store a v).faultPc = s.faultPc := rfl
@[simp] theorem State.store_faultWord (a : Nat) (v : Word) : (s.store a v).faultWord = s.faultWord := rfl
@[simp] theorem State.store_faultAddr (a : Nat) (v : Word) : (s.store a v).faultAddr = s.faultAddr := rfl
@[simp] theorem State.store_inQ (a : Nat) (v : Word) : (s.store a v).inQ = s.inQ := rfl
@[simp] theorem State.store_inClosed (a : Nat) (v : Word) : (s.store a v).inClosed = s.inClosed := rfl
@[simp] theorem State.store_outQ (a : Nat) (v : Word) : (s.store a v).outQ = s.outQ := rfl
@[simp] theorem State.store_outClosed (a : Nat) (v : Word) : (s.store a v).outClosed = s.outClosed := rfl
@[simp] theorem State.store_outDisc (a : Nat) (v : Word) : (s.store a v).outDisc = s.outDisc := rfl
@[simp] theorem State.store_params (a : Nat) (v : Word) : (s.store a v).params = s.params := rfl

@[simp] theorem State.setRb_mem (v : Word) : (s.setRb v).mem = s.mem := rfl
@[simp] theorem State.setRb_pc (v : Word) : (s.setRb v).pc = s.pc := rfl
@[simp] theorem State.setRb_rb (v : Word) : (s.setRb v).rb = v := rfl
@[simp] theorem State.setRb_state (v : Word) : (s.setRb v).state = s.state := rfl
@[simp] theorem State.setRb_inTarget (v : Word) : (s.setRb v).inTarget = s.inTarget := rfl
@[simp] theorem State.setRb_faultCause (v : Word) : (s.setRb v).faultCause = s.faultCause := rfl
@[simp] theorem State.setRb_faultPc (v : Word) : (s.setRb v).faultPc = s.faultPc := rfl
@[simp] theorem State.setRb_faultWord (v : Word) : (s.setRb v).faultWord = s.faultWord := rfl
@[simp] theorem State.setRb_faultAddr (v : Word) : (s.setRb v).faultAddr = s.faultAddr := rfl
@[simp] theorem State.setRb_inQ (v : Word) : (s.setRb v).inQ = s.inQ := rfl
@[simp] theorem State.setRb_inClosed (v : Word) : (s.setRb v).inClosed = s.inClosed := rfl
@[simp] theorem State.setRb_outQ (v : Word) : (s.setRb v).outQ = s.outQ := rfl
@[simp] theorem State.setRb_outClosed (v : Word) : (s.setRb v).outClosed = s.outClosed := rfl
@[simp] theorem State.setRb_outDisc (v : Word) : (s.setRb v).outDisc = s.outDisc := rfl
@[simp] theorem State.setRb_params (v : Word) : (s.setRb v).params = s.params := rfl

@[simp] theorem State.pushOut_mem (v : Word) : (s.pushOut v).mem = s.mem := rfl
@[simp] theorem State.pushOut_pc (v : Word) : (s.pushOut v).pc = s.pc := rfl
@[simp] theorem State.pushOut_rb (v : Word) : (s.pushOut v).rb = s.rb := rfl
@[simp] theorem State.pushOut_state (v : Word) : (s.pushOut v).state = s.state := rfl
@[simp] theorem State.pushOut_inTarget (v : Word) : (s.pushOut v).inTarget = s.inTarget := rfl
@[simp] theorem State.pushOut_faultCause (v : Word) : (s.pushOut v).faultCause = s.faultCause := rfl
@[simp] theorem State.pushOut_faultPc (v : Word) : (s.pushOut v).faultPc = s.faultPc := rfl
@[simp] theorem State.pushOut_faultWord (v : Word) : (s.pushOut v).faultWord = s.faultWord := rfl
@[simp] theorem State.pushOut_faultAddr (v : Word) : (s.pushOut v).faultAddr = s.faultAddr := rfl
@[simp] theorem State.pushOut_inQ (v : Word) : (s.pushOut v).inQ = s.inQ := rfl
@[simp] theorem State.pushOut_inClosed (v : Word) : (s.pushOut v).inClosed = s.inClosed := rfl
@[simp] theorem State.pushOut_outQ (v : Word) : (s.pushOut v).outQ = s.outQ ++ [v] := rfl
@[simp] theorem State.pushOut_outClosed (v : Word) : (s.pushOut v).outClosed = s.outClosed := rfl
@[simp] theorem State.pushOut_outDisc (v : Word) : (s.pushOut v).outDisc = s.outDisc := rfl
@[simp] theorem State.pushOut_params (v : Word) : (s.pushOut v).params = s.params := rfl

@[simp] theorem State.beginWait_mem (a : Nat) : (s.beginWait a).mem = s.mem := rfl
@[simp] theorem State.beginWait_pc (a : Nat) : (s.beginWait a).pc = s.pc := rfl
@[simp] theorem State.beginWait_rb (a : Nat) : (s.beginWait a).rb = s.rb := rfl
@[simp] theorem State.beginWait_state (a : Nat) : (s.beginWait a).state = .waitingForInput := rfl
@[simp] theorem State.beginWait_inTarget (a : Nat) : (s.beginWait a).inTarget = a := rfl
@[simp] theorem State.beginWait_faultCause (a : Nat) : (s.beginWait a).faultCause = s.faultCause := rfl
@[simp] theorem State.beginWait_faultPc (a : Nat) : (s.beginWait a).faultPc = s.faultPc := rfl
@[simp] theorem State.beginWait_faultWord (a : Nat) : (s.beginWait a).faultWord = s.faultWord := rfl
@[simp] theorem State.beginWait_faultAddr (a : Nat) : (s.beginWait a).faultAddr = s.faultAddr := rfl
@[simp] theorem State.beginWait_inQ (a : Nat) : (s.beginWait a).inQ = s.inQ := rfl
@[simp] theorem State.beginWait_inClosed (a : Nat) : (s.beginWait a).inClosed = s.inClosed := rfl
@[simp] theorem State.beginWait_outQ (a : Nat) : (s.beginWait a).outQ = s.outQ := rfl
@[simp] theorem State.beginWait_outClosed (a : Nat) : (s.beginWait a).outClosed = s.outClosed := rfl
@[simp] theorem State.beginWait_outDisc (a : Nat) : (s.beginWait a).outDisc = s.outDisc := rfl
@[simp] theorem State.beginWait_params (a : Nat) : (s.beginWait a).params = s.params := rfl

@[simp] theorem State.endWait_mem (q : List Word) : (s.endWait q).mem = s.mem := rfl
@[simp] theorem State.endWait_pc (q : List Word) : (s.endWait q).pc = s.pc := rfl
@[simp] theorem State.endWait_rb (q : List Word) : (s.endWait q).rb = s.rb := rfl
@[simp] theorem State.endWait_state (q : List Word) : (s.endWait q).state = .running := rfl
@[simp] theorem State.endWait_inTarget (q : List Word) : (s.endWait q).inTarget = s.inTarget := rfl
@[simp] theorem State.endWait_faultCause (q : List Word) : (s.endWait q).faultCause = s.faultCause := rfl
@[simp] theorem State.endWait_faultPc (q : List Word) : (s.endWait q).faultPc = s.faultPc := rfl
@[simp] theorem State.endWait_faultWord (q : List Word) : (s.endWait q).faultWord = s.faultWord := rfl
@[simp] theorem State.endWait_faultAddr (q : List Word) : (s.endWait q).faultAddr = s.faultAddr := rfl
@[simp] theorem State.endWait_inQ (q : List Word) : (s.endWait q).inQ = q := rfl
@[simp] theorem State.endWait_inClosed (q : List Word) : (s.endWait q).inClosed = s.inClosed := rfl
@[simp] theorem State.endWait_outQ (q : List Word) : (s.endWait q).outQ = s.outQ := rfl
@[simp] theorem State.endWait_outClosed (q : List Word) : (s.endWait q).outClosed = s.outClosed := rfl
@[simp] theorem State.endWait_outDisc (q : List Word) : (s.endWait q).outDisc = s.outDisc := rfl
@[simp] theorem State.endWait_params (q : List Word) : (s.endWait q).params = s.params := rfl

@[simp] theorem State.halt_mem : s.halt.mem = s.mem := rfl
@[simp] theorem State.halt_pc : s.halt.pc = s.pc := rfl
@[simp] theorem State.halt_rb : s.halt.rb = s.rb := rfl
@[simp] theorem State.halt_state : s.halt.state = .halted := rfl
@[simp] theorem State.halt_inTarget : s.halt.inTarget = s.inTarget := rfl
@[simp] theorem State.halt_faultCause : s.halt.faultCause = s.faultCause := rfl
@[simp] theorem State.halt_faultPc : s.halt.faultPc = s.faultPc := rfl
@[simp] theorem State.halt_faultWord : s.halt.faultWord = s.faultWord := rfl
@[simp] theorem State.halt_faultAddr : s.halt.faultAddr = s.faultAddr := rfl
@[simp] theorem State.halt_inQ : s.halt.inQ = s.inQ := rfl
@[simp] theorem State.halt_inClosed : s.halt.inClosed = s.inClosed := rfl
@[simp] theorem State.halt_outQ : s.halt.outQ = s.outQ := rfl
@[simp] theorem State.halt_outClosed : s.halt.outClosed = true := rfl
@[simp] theorem State.halt_outDisc : s.halt.outDisc = s.outDisc := rfl
@[simp] theorem State.halt_params : s.halt.params = s.params := rfl

end Sys2Proof.Machine
end

