-- ==== Sys2Proof/Laws/Ops.lean ====
section
/-! SUPPORT. One specification lemma per shared operation: what it answers where it completes, and, if it answers a next
state, which of its cases that state came from. -/

namespace Sys2Proof.Machine

theorem inRange_iff (a : Int) : inRange a = true ↔ 0 ≤ a ∧ a ≤ maxAddr := by simp [inRange]

theorem fits64_iff (v : Int) : fits64 v = true ↔ -9223372036854775808 ≤ v ∧ v ≤ 9223372036854775807 := by
  simp [fits64]

theorem toInt_bounds (w : Word) : -9223372036854775808 ≤ w.toInt ∧ w.toInt ≤ 9223372036854775807 := by
  have h1 := BitVec.toInt_lt (x := w)
  have h2 := BitVec.le_toInt (x := w)
  constructor <;> omega

/-- An address a program names directly never exceeds `MAX_ADDR`: only its sign can put it out of range. -/
theorem inRange_toInt (w : Word) : inRange w.toInt = true ↔ 0 ≤ w.toInt := by
  have := toInt_bounds w
  rw [inRange_iff, maxAddr]; omega

/-- A word whose value fits is that value. -/
theorem toInt_wrap64 (v : Int) (h : fits64 v = true) : (wrap64 v).toInt = v := by
  rw [fits64_iff] at h
  rw [wrap64, BitVec.toInt_ofInt]
  exact Int.bmod_eq_of_le (by omega) (by omega)

/-- A non-negative word's unsigned value is its value. -/
theorem toNat_of_nonneg (w : Word) (h : 0 ≤ w.toInt) : (w.toNat : Int) = w.toInt := by
  rw [BitVec.toInt_eq_toNat_cond] at h ⊢
  split at h <;> rename_i h'
  · simp [h']
  · have := w.isLt; omega

theorem resolve_cases {rb : Word} {o : Operand} {x : Resolved} (h : resolve rb o = .ok x) :
    (effectiveAddress rb o = none ∧ x = .imm o.raw) ∨
      ∃ ea, effectiveAddress rb o = some ea ∧ inRange ea = true ∧ x = .mem ea.toNat := by
  unfold resolve at h
  cases hea : effectiveAddress rb o with
  | none => rw [hea] at h; exact .inl ⟨rfl, (Except.ok.inj h).symm⟩
  | some ea =>
    rw [hea] at h
    by_cases hr : inRange ea = true
    · simp only [hr, if_true, Except.ok.injEq] at h
      exact .inr ⟨ea, rfl, hr, h.symm⟩
    · simp only [hr] at h; cases h

theorem resolve_error {rb : Word} {o : Operand} {e : Trap} (h : resolve rb o = .error e) :
    ∃ ea, effectiveAddress rb o = some ea ∧ inRange ea = false ∧ e = .address ea := by
  unfold resolve at h
  cases hea : effectiveAddress rb o with
  | none => rw [hea] at h; cases h
  | some ea =>
    rw [hea] at h
    by_cases hr : inRange ea = true
    · simp only [hr, if_true] at h; cases h
    · simp only [hr] at h
      exact ⟨ea, rfl, by simpa using hr, (Except.error.inj h).symm⟩

theorem resolveTarget_cases {rb : Word} {o : Operand} {d : Nat} (h : resolveTarget rb o = .ok d) :
    ∃ ea, effectiveAddress rb o = some ea ∧ inRange ea = true ∧ d = ea.toNat := by
  unfold resolveTarget at h
  cases hea : effectiveAddress rb o with
  | none => rw [hea] at h; cases h
  | some ea =>
    rw [hea] at h
    by_cases hr : inRange ea = true
    · simp only [hr, if_true, Except.ok.injEq] at h
      exact ⟨ea, rfl, hr, h.symm⟩
    · simp only [hr] at h; cases h

theorem resolveTarget_error {rb : Word} {o : Operand} {e : Trap} (h : resolveTarget rb o = .error e) :
    (effectiveAddress rb o = none ∧ e = .head .writeTarget) ∨
      ∃ ea, effectiveAddress rb o = some ea ∧ inRange ea = false ∧ e = .address ea := by
  unfold resolveTarget at h
  cases hea : effectiveAddress rb o with
  | none => rw [hea] at h; exact .inl ⟨rfl, (Except.error.inj h).symm⟩
  | some ea =>
    rw [hea] at h
    by_cases hr : inRange ea = true
    · simp only [hr, if_true] at h; cases h
    · simp only [hr] at h
      exact .inr ⟨ea, rfl, by simpa using hr, (Except.error.inj h).symm⟩

/-- A resolved write target is an address of the machine. -/
theorem resolveTarget_le {rb : Word} {o : Operand} {d : Nat} (h : resolveTarget rb o = .ok d) : d ≤ maxAddr := by
  obtain ⟨ea, -, hr, rfl⟩ := resolveTarget_cases h
  rw [inRange_iff] at hr; omega

theorem writable_of_resolveTarget {rb : Word} {o : Operand} {d : Nat} (h : resolveTarget rb o = .ok d) :
    o.writable = true := by
  obtain ⟨ea, h1, -⟩ := resolveTarget_cases h
  obtain ⟨m, r⟩ := o
  cases m <;> simp_all [effectiveAddress, Operand.writable]

/-- A writable operand that resolves as a source resolves as a target. -/
theorem resolveTarget_of_resolve {rb : Word} {o : Operand} {x : Resolved} (h : resolve rb o = .ok x)
    (hw : o.writable = true) : ∃ d, resolveTarget rb o = .ok d := by
  rcases resolve_cases h with ⟨h1, -⟩ | ⟨ea, h1, h2, -⟩
  · obtain ⟨m, r⟩ := o
    cases m <;> simp_all [effectiveAddress, Operand.writable]
  · exact ⟨ea.toNat, by simp [resolveTarget, h1, h2]⟩

theorem requireWritable_ok (o : Operand) (h : o.writable = true) : requireWritable o = .ok () := by
  simp [requireWritable, h]

theorem commit_cases {s t : State} {r : Except Trap State} (h : s.commit r = .next t) :
    r = .ok t ∨ ∃ e, r = .error e ∧ t = s.raise e := by
  cases r with
  | ok u => exact .inl (by simpa [State.commit] using h)
  | error e => exact .inr ⟨e, rfl, by simpa [State.commit] using h.symm⟩

/-- The ALU under the policy: the result word, but OVERFLOW where `ovf` meets FAULT. -/
theorem aluUnder_eq (p : OvfPolicy) (op : AluOp) (a b : Word) :
    aluUnder p op a b = if (alu op a b).2 = true ∧ p = .fault then .error .overflow else .ok (alu op a b).1 := by
  simp [aluUnder]

theorem aluUnder_error {p : OvfPolicy} {op : AluOp} {a b : Word} {e : Trap} (h : aluUnder p op a b = .error e) :
    e = .overflow ∧ p = .fault ∧ (alu op a b).2 = true := by
  rw [aluUnder_eq] at h
  split at h <;> rename_i hc
  · exact ⟨(Except.error.inj h).symm, hc.2, hc.1⟩
  · cases h

/-- Where the operands resolve and the ALU answers, a binary instruction stores the answer and moves on by 4. -/
theorem binary_next {s : State} {op : AluOp} {a b c : Operand} {x y : Resolved} {d : Nat} {r : Word}
    (ha : resolve s.rb a = .ok x) (hb : resolve s.rb b = .ok y) (hc : resolveTarget s.rb c = .ok d)
    (hr : aluUnder s.params.ovfPolicy op (s.value x) (s.value y) = .ok r) :
    s.binary op a b c = .next ((s.store d r).advance 4) := by
  simp [State.binary, State.commit, requireWritable_ok c (writable_of_resolveTarget hc), ha, hb, hc, hr, bind,
    Except.bind, pure, Except.pure]

/-- Where the operands resolve and the ALU overflows under FAULT, it raises OVERFLOW. -/
theorem binary_overflow {s : State} {op : AluOp} {a b c : Operand} {x y : Resolved} {d : Nat} {e : Trap}
    (ha : resolve s.rb a = .ok x) (hb : resolve s.rb b = .ok y) (hc : resolveTarget s.rb c = .ok d)
    (hr : aluUnder s.params.ovfPolicy op (s.value x) (s.value y) = .error e) :
    s.binary op a b c = .next (s.raise e) := by
  simp [State.binary, State.commit, requireWritable_ok c (writable_of_resolveTarget hc), ha, hb, hc, hr, bind,
    Except.bind]

/-- `ea` is the exact address of one of the operands, and no address of the space. -/
def BadAddress (s : State) (os : List Operand) (ea : Int) : Prop :=
  inRange ea = false ∧ ∃ o ∈ os, effectiveAddress s.rb o = some ea

/-- The faults of a binary instruction's operands and arithmetic. -/
def BinaryTrap (s : State) (op : AluOp) (a b c : Operand) (e : Trap) : Prop :=
  (e = .head .writeTarget ∧ c.writable = false) ∨ (∃ ea, e = .address ea ∧ BadAddress s [a, b, c] ea) ∨
    (e = .overflow ∧ s.params.ovfPolicy = .fault ∧ ∃ x y, (alu op x y).2 = true)

/-- Everything a binary instruction can answer. -/
theorem binary_cases {s t : State} {op : AluOp} {a b c : Operand} (h : s.binary op a b c = .next t) :
    (∃ x y d r, resolve s.rb a = .ok x ∧ resolve s.rb b = .ok y ∧ resolveTarget s.rb c = .ok d ∧
      aluUnder s.params.ovfPolicy op (s.value x) (s.value y) = .ok r ∧ t = (s.store d r).advance 4) ∨
    ∃ e, t = s.raise e ∧ BinaryTrap s op a b c e := by
  by_cases hw : c.writable = true
  swap
  · have hw' : c.writable = false := by simpa using hw
    refine .inr ⟨.head .writeTarget, ?_, .inl ⟨rfl, hw'⟩⟩
    simpa [State.binary, State.commit, requireWritable, hw', bind, Except.bind] using h.symm
  cases ha : resolve s.rb a with
  | error e =>
    obtain ⟨ea, ho, hr, rfl⟩ := resolve_error ha
    refine .inr ⟨.address ea, ?_, .inr (.inl ⟨ea, rfl, hr, _, by simp, ho⟩)⟩
    simpa [State.binary, State.commit, requireWritable_ok c hw, ha, bind, Except.bind] using h.symm
  | ok x =>
  cases hb : resolve s.rb b with
  | error e =>
    obtain ⟨ea, ho, hr, rfl⟩ := resolve_error hb
    refine .inr ⟨.address ea, ?_, .inr (.inl ⟨ea, rfl, hr, _, by simp, ho⟩)⟩
    simpa [State.binary, State.commit, requireWritable_ok c hw, ha, hb, bind, Except.bind] using h.symm
  | ok y =>
  cases hc : resolveTarget s.rb c with
  | error e =>
    have ht : t = s.raise e := by
      simpa [State.binary, State.commit, requireWritable_ok c hw, ha, hb, hc, bind, Except.bind] using h.symm
    rcases resolveTarget_error hc with ⟨h0, rfl⟩ | ⟨ea, ho, hr, rfl⟩
    · exfalso
      obtain ⟨m, r⟩ := c
      cases m <;> simp_all [effectiveAddress, Operand.writable]
    · exact .inr ⟨.address ea, ht, .inr (.inl ⟨ea, rfl, hr, _, by simp, ho⟩)⟩
  | ok d =>
  cases hr : aluUnder s.params.ovfPolicy op (s.value x) (s.value y) with
  | error e =>
    rw [binary_overflow ha hb hc hr] at h
    obtain ⟨rfl, hp, ho⟩ := aluUnder_error hr
    exact .inr ⟨.overflow, (Host.Outcome.next.inj h).symm, .inr (.inr ⟨rfl, hp, _, _, ho⟩)⟩
  | ok r =>
    rw [binary_next ha hb hc hr] at h
    exact .inl ⟨x, y, d, r, rfl, rfl, rfl, hr, (Host.Outcome.next.inj h).symm⟩

theorem ztest_eq (x : Word) : decide ((alu .ztest x 0#64).1 = 1#64) = decide (x ≠ 0#64) := by
  by_cases h : x = 0#64 <;> simp [alu, bitWord, h]

/-- Where its operands resolve, a jump goes to the target's value or on by 3. -/
theorem jumpOn_next {s : State} {z : Bool} {a b : Operand} {x y : Resolved}
    (ha : resolve s.rb a = .ok x) (hb : resolve s.rb b = .ok y) :
    s.jumpOn z a b =
      .next (if decide (s.value x ≠ 0#64) = !z then s.jump (s.value y) else s.advance 3) := by
  simp only [State.jumpOn, ha, hb, bind, Except.bind, pure, Except.pure, ztest_eq, State.commit]

/-- Everything a jump can answer. -/
theorem jumpOn_cases {s t : State} {z : Bool} {a b : Operand} (h : s.jumpOn z a b = .next t) :
    (∃ x y, resolve s.rb a = .ok x ∧ resolve s.rb b = .ok y ∧
      t = if decide (s.value x ≠ 0#64) = !z then s.jump (s.value y) else s.advance 3) ∨
    ∃ ea, t = s.raise (.address ea) ∧ BadAddress s [a, b] ea := by
  cases ha : resolve s.rb a with
  | error e =>
    obtain ⟨ea, ho, hr, rfl⟩ := resolve_error ha
    refine .inr ⟨ea, ?_, hr, _, by simp, ho⟩
    simpa [State.jumpOn, State.commit, ha, bind, Except.bind] using h.symm
  | ok x =>
  cases hb : resolve s.rb b with
  | error e =>
    obtain ⟨ea, ho, hr, rfl⟩ := resolve_error hb
    refine .inr ⟨ea, ?_, hr, _, by simp, ho⟩
    simpa [State.jumpOn, State.commit, ha, hb, bind, Except.bind] using h.symm
  | ok y =>
    rw [jumpOn_next ha hb] at h
    exact .inl ⟨x, y, rfl, rfl, (Host.Outcome.next.inj h).symm⟩

/-- Everything Input's first step can answer. -/
theorem execInput_cases {s t : State} {a : Operand} (h : execInput a s = .next t) :
    (∃ d, resolveTarget s.rb a = .ok d ∧ t = s.beginWait d) ∨
    (t = s.raise (.head .writeTarget) ∧ a.writable = false) ∨
    ∃ ea, t = s.raise (.address ea) ∧ BadAddress s [a] ea := by
  cases ha : resolveTarget s.rb a with
  | error e =>
    have ht : t = s.raise e := by
      simpa [execInput, State.commit, ha, bind, Except.bind] using h.symm
    rcases resolveTarget_error ha with ⟨h0, rfl⟩ | ⟨ea, ho, hr, rfl⟩
    · refine .inr (.inl ⟨ht, ?_⟩)
      obtain ⟨m, r⟩ := a
      cases m <;> simp_all [effectiveAddress, Operand.writable]
    · exact .inr (.inr ⟨ea, ht, hr, _, by simp, ho⟩)
  | ok d =>
    exact .inl ⟨d, rfl, by simpa [execInput, State.commit, ha, bind, Except.bind, pure, Except.pure] using h.symm⟩

/-- Everything Input's second step can answer. -/
theorem completeInput_cases {s t : State} (h : completeInput s = .next t) :
    (∃ v q, s.inQ = v :: q ∧ t = ((s.store s.inTarget v).endWait q).advance 2) ∨
    (s.inQ = [] ∧ s.inClosed = true ∧ t = s.raise .inputDisconnected) := by
  unfold completeInput at h
  cases hq : s.inQ with
  | nil =>
    rw [hq] at h
    cases hc : s.inClosed with
    | false => simp [hc] at h
    | true => exact .inr ⟨rfl, rfl, by simpa [hc] using h.symm⟩
  | cons v q =>
    rw [hq] at h
    exact .inl ⟨v, q, rfl, (Host.Outcome.next.inj h).symm⟩

/-- Everything Output can answer as a next state. -/
theorem execOutput_cases {s t : State} {a : Operand} (h : execOutput a s = .next t) :
    (∃ x, resolve s.rb a = .ok x ∧ s.outDisc = false ∧ s.outFull = false ∧
      t = (s.pushOut (s.value x)).advance 2) ∨
    (∃ x, resolve s.rb a = .ok x ∧ s.outDisc = true ∧ t = s.raise .outputDisconnected) ∨
    ∃ ea, resolve s.rb a = .error (.address ea) ∧ t = s.raise (.address ea) ∧ BadAddress s [a] ea := by
  unfold execOutput at h
  cases ha : resolve s.rb a with
  | error e =>
    obtain ⟨ea, ho, hr, rfl⟩ := resolve_error ha
    exact .inr (.inr ⟨ea, rfl, by simpa [ha] using h.symm, hr, _, by simp, ho⟩)
  | ok x =>
    cases hd : s.outDisc with
    | true => exact .inr (.inl ⟨x, rfl, rfl, by simpa [ha, hd] using h.symm⟩)
    | false =>
      cases hf : s.outFull with
      | true => simp [ha, hd, hf] at h
      | false => exact .inl ⟨x, rfl, rfl, rfl, by simpa [ha, hd, hf] using h.symm⟩

/-- Everything AdjustRelativeBase can answer. -/
theorem execAdjustRelativeBase_cases {s t : State} {a : Operand} (h : execAdjustRelativeBase a s = .next t) :
    (∃ x r, resolve s.rb a = .ok x ∧ aluUnder s.params.ovfPolicy .add s.rb (s.value x) = .ok r ∧
      t = (s.setRb r).advance 2) ∨
    (t = s.raise .overflow ∧ s.params.ovfPolicy = .fault) ∨
    ∃ ea, t = s.raise (.address ea) ∧ BadAddress s [a] ea := by
  cases ha : resolve s.rb a with
  | error e =>
    obtain ⟨ea, ho, hr, rfl⟩ := resolve_error ha
    refine .inr (.inr ⟨ea, ?_, hr, _, by simp, ho⟩)
    simpa [execAdjustRelativeBase, State.commit, ha, bind, Except.bind] using h.symm
  | ok x =>
  cases hr : aluUnder s.params.ovfPolicy .add s.rb (s.value x) with
  | error e =>
    obtain ⟨rfl, hp, -⟩ := aluUnder_error hr
    refine .inr (.inl ⟨?_, hp⟩)
    simpa [execAdjustRelativeBase, State.commit, ha, hr, bind, Except.bind] using h.symm
  | ok r =>
    refine .inl ⟨x, r, rfl, hr, ?_⟩
    simpa [execAdjustRelativeBase, State.commit, ha, hr, bind, Except.bind, pure, Except.pure] using h.symm

/-- What `fetch` answers when it answers an instruction (spec 30_encoding.md R115, R116). -/
theorem fetch_ok {s : State} {i : Instr} (h : fetch s = .ok i) :
    ∃ hd, inRange s.pc.toInt = true ∧ decodeHead (s.mem.read s.pc.toNat) = .ok hd ∧
      s.pc.toInt + hd.op.length ≤ maxAddr ∧ i = hd.instr (fun k => s.mem.read (s.pc.toNat + k)) := by
  unfold fetch at h
  by_cases hr : inRange s.pc.toInt = true
  · simp only [hr, if_true] at h
    cases hh : decodeHead (s.mem.read s.pc.toNat) with
    | error e => rw [hh] at h; cases h
    | ok hd =>
      rw [hh] at h
      by_cases hl : s.pc.toInt + hd.op.length ≤ maxAddr
      · simp only [hl, if_true, Except.ok.injEq] at h
        exact ⟨hd, hr, rfl, hl, h.symm⟩
      · simp only [hl] at h; cases h
  · simp only [hr] at h; cases h

/-- What `fetch` answers when it answers a fault. -/
theorem fetch_error {s : State} {e : Trap} (h : fetch s = .error e) :
    (inRange s.pc.toInt = false ∧ e = .address s.pc.toInt) ∨
    (∃ f, inRange s.pc.toInt = true ∧ decodeHead (s.mem.read s.pc.toNat) = .error f ∧ e = .head f) ∨
    ∃ hd, inRange s.pc.toInt = true ∧ decodeHead (s.mem.read s.pc.toNat) = .ok hd ∧
      (maxAddr : Int) < s.pc.toInt + hd.op.length ∧ e = .address (s.pc.toInt + hd.op.length) := by
  unfold fetch at h
  by_cases hr : inRange s.pc.toInt = true
  · simp only [hr, if_true] at h
    cases hh : decodeHead (s.mem.read s.pc.toNat) with
    | error f => rw [hh] at h; exact .inr (.inl ⟨f, hr, rfl, (Except.error.inj h).symm⟩)
    | ok hd =>
      rw [hh] at h
      by_cases hl : s.pc.toInt + hd.op.length ≤ maxAddr
      · simp only [hl, if_true] at h; cases h
      · simp only [hl] at h
        exact .inr (.inr ⟨hd, hr, rfl, by omega, (Except.error.inj h).symm⟩)
  · simp only [hr] at h
    exact .inl ⟨by simpa using hr, (Except.error.inj h).symm⟩

/-- An instruction fetched has the opcode of its opcode word. -/
@[simp] theorem Head.instr_opcode (h : Head) (raw : Nat → Word) : (h.instr raw).opcode = h.op := by
  obtain ⟨op, m1, m2, m3⟩ := h
  cases op <;> rfl

/-- Every step with a next state is one of these (40_execution_cycle.md R141). -/
theorem step_cases {s t : State} (h : step s = .next t) :
    (s.state = .running ∧ ∃ e, fetch s = .error e ∧ t = s.raise e) ∨
    (s.state = .running ∧ ∃ i, fetch s = .ok i ∧ exec i s = .next t) ∨
    (s.state = .waitingForInput ∧ completeInput s = .next t) := by
  unfold step at h
  cases hs : s.state with
  | running =>
    rw [hs] at h
    cases hf : fetch s with
    | error e => rw [hf] at h; exact .inl ⟨rfl, e, rfl, (Host.Outcome.next.inj h).symm⟩
    | ok i => rw [hf] at h; exact .inr (.inl ⟨rfl, i, rfl, h⟩)
  | waitingForInput => rw [hs] at h; exact .inr (.inr ⟨rfl, h⟩)
  | halted => rw [hs] at h; cases h
  | faulted => rw [hs] at h; cases h

/-- A running engine with a decoded instruction executes it. -/
theorem step_exec {s : State} {i : Instr} (hs : s.state = .running) (hf : fetch s = .ok i) : step s = exec i s := by
  simp [step, hs, hf]

theorem step_fetch_error {s : State} {e : Trap} (hs : s.state = .running) (hf : fetch s = .error e) :
    step s = .next (s.raise e) := by
  simp [step, hs, hf]

theorem step_waiting {s : State} (hs : s.state = .waitingForInput) : step s = completeInput s := by
  simp [step, hs]

end Sys2Proof.Machine
end

