-- ==== Sys2Proof/Laws/PerInstr.lean ====
section
/-! SUPPORT. The family EncodedLength: an instruction is encoded in as many words as its length says, 1 to 4 (spec
30_encoding.md R101, R102), one lemma per constructor. -/

namespace Sys2Proof.Laws.EncodedLength

/-- The encoding of `i` has `i.length` words, and that is 1 to 4. -/
def Statement (i : Instr) : Prop := (encode i).length = i.length ∧ 1 ≤ i.length ∧ i.length ≤ 4

theorem opcode_length_bounds (op : Opcode) : 1 ≤ op.length ∧ op.length ≤ 4 := by cases op <;> decide

theorem add (a b c : Operand) : Statement (.add a b c) := ⟨rfl, opcode_length_bounds _⟩
theorem multiply (a b c : Operand) : Statement (.multiply a b c) := ⟨rfl, opcode_length_bounds _⟩
theorem input (a : Operand) : Statement (.input a) := ⟨rfl, opcode_length_bounds _⟩
theorem output (a : Operand) : Statement (.output a) := ⟨rfl, opcode_length_bounds _⟩
theorem jumpIfTrue (a b : Operand) : Statement (.jumpIfTrue a b) := ⟨rfl, opcode_length_bounds _⟩
theorem jumpIfFalse (a b : Operand) : Statement (.jumpIfFalse a b) := ⟨rfl, opcode_length_bounds _⟩
theorem lessThan (a b c : Operand) : Statement (.lessThan a b c) := ⟨rfl, opcode_length_bounds _⟩
theorem equals (a b c : Operand) : Statement (.equals a b c) := ⟨rfl, opcode_length_bounds _⟩
theorem adjustRelativeBase (a : Operand) : Statement (.adjustRelativeBase a) := ⟨rfl, opcode_length_bounds _⟩
theorem halt : Statement .halt := ⟨rfl, opcode_length_bounds _⟩

end Sys2Proof.Laws.EncodedLength
end

