-- ==== Sys2Proof/Laws/Runs.lean ====
section
/-! SUPPORT. Laws of runs: two runs in a row are a run, the words of a run's parts add up, and what a word's absence in an
engine step says. -/

namespace Sys2Proof.Machine

theorem Run.append {s t u : State} {es fs : List Event} (h : Run s es t) (h' : Run t fs u) : Run s (es ++ fs) u := by
  induction h with
  | nil => exact h'
  | cons hm _ ih => exact .cons hm (ih h')

@[simp] theorem pushedWords_append (es fs : List Event) : pushedWords (es ++ fs) = pushedWords es ++ pushedWords fs :=
  List.filterMap_append
@[simp] theorem consumedWords_append (es fs : List Event) :
    consumedWords (es ++ fs) = consumedWords es ++ consumedWords fs := List.filterMap_append
@[simp] theorem emittedWords_append (es fs : List Event) : emittedWords (es ++ fs) = emittedWords es ++ emittedWords fs :=
  List.filterMap_append
@[simp] theorem poppedWords_append (es fs : List Event) : poppedWords (es ++ fs) = poppedWords es ++ poppedWords fs :=
  List.filterMap_append

/-- An engine step pushes nothing and pops nothing: those are the host's. -/
theorem engineEvent_not_host (s : State) (v : Word) : engineEvent s ≠ .pushed v ∧ engineEvent s ≠ .popped v := by
  unfold engineEvent
  repeat' split
  all_goals exact ⟨nofun, nofun⟩

/-- A move of the engine that is taken is its step. -/
theorem step_of_engineMove {s t : State} {r : Reply} (h : engineMove s = .done t r) : step s = .next t ∧ r = .none := by
  unfold engineMove at h
  split at h <;> simp_all

end Sys2Proof.Machine
end

