-- ==== Sys2Proof/Tests/Slice0.lean ====
section
/-! SUPPORT. Small tests, each of one step or one operation. Expected values come from the spec: 95_test_vectors.md (the
vector is named), the tables of the rules, or a calculation by hand from a rule. After them, a witness for the hypotheses
of each obligation that has some. -/

namespace Sys2Proof.Tests

open Sys2Proof Sys2Proof.Machine

/-! ### Helpers -/

/-- The words of a list of integers. -/
def words (l : List Int) : List Word := l.map wrap64

/-- The engine built from a program, under the spec's own parameters. -/
def engine (l : List Int) : State := buildEngine (words l) none Params.default

/-- The same under `OVF_POLICY` = FAULT. -/
def engineF (l : List Int) : State := buildEngine (words l) none { ovfPolicy := .fault, outCap := none }

/-- The state an outcome goes on with. -/
def next (o : Host.Outcome State Fault Refusal) : Option State :=
  match o with
  | .next t => some t
  | .fault _ | .refused _ => none

/-- The reason an outcome is no step. -/
def noStep (o : Host.Outcome State Fault Refusal) : Option Fault :=
  match o with
  | .fault f => some f
  | .next _ | .refused _ => none

/-- One step, seen through a view. -/
def after {α : Type} (s : State) (view : State → α) : Option α := (next (step s)).map view

/-- Cause, `fault_pc`, `fault_word` and `fault_addr` (signed) after one step. -/
def faultAfter (s : State) : Option (Nat × Int × Int × Int) :=
  after s fun t => (t.faultCause.code, t.faultPc.toInt, t.faultWord.toInt, t.faultAddr.toInt)

/-! ### Well-formedness: each check refuses a term -/

theorem test_wf_add_immediate_target : (Instr.add (.imm 1#64) (.imm 2#64) (.imm 3#64)).wf = false := by decide
theorem test_wf_multiply_immediate_target : (Instr.multiply (.abs 1#64) (.abs 2#64) (.imm 3#64)).wf = false := by decide
theorem test_wf_lessThan_immediate_target : (Instr.lessThan (.rel 1#64) (.abs 2#64) (.imm 3#64)).wf = false := by decide
theorem test_wf_equals_immediate_target : (Instr.equals (.abs 1#64) (.imm 2#64) (.imm 3#64)).wf = false := by decide
theorem test_wf_input_immediate_target : (Instr.input (.imm 0#64)).wf = false := by decide
theorem test_wf_params_outCap_zero : Params.wf { ovfPolicy := .wrap, outCap := some 0 } = false := by decide
theorem test_wf_memory_zero_cell_listed : Memory.wf [(3, 0#64)] = false := by decide
theorem test_wf_memory_not_rising : Memory.wf [(3, 1#64), (3, 2#64)] = false := by decide
theorem test_wf_memory_past_top : Memory.wf [(maxAddr + 1, 1#64)] = false := by decide

/-! ### Decoding: words written out digit by digit from 30_encoding.md R100 and R104 -/

/-- 21101 = 2·10000 + 1·1000 + 1·100 + 01: the word S7 names, modes (1, 1, 2). -/
theorem test_decode_add : decode (words [21101, 5, -6, 7]) = .ok (.add (.imm 5#64) (.imm (-6#64)) (.rel 7#64), []) := by
  decide
/-- 1002: modes (0, 1, 0), S7. -/
theorem test_decode_multiply :
    decode (words [1002, 4, 3, 4, 99]) = .ok (.multiply (.abs 4#64) (.imm 3#64) (.abs 4#64), [99#64]) := by decide
theorem test_decode_input : decode (words [3, 9]) = .ok (.input (.abs 9#64), []) := by decide
theorem test_decode_output : decode (words [204, -1]) = .ok (.output (.rel (-1#64)), []) := by decide
theorem test_decode_jumpIfTrue : decode (words [1105, 1, 7]) = .ok (.jumpIfTrue (.imm 1#64) (.imm 7#64), []) := by decide
theorem test_decode_jumpIfFalse : decode (words [206, 1, 7]) = .ok (.jumpIfFalse (.rel 1#64) (.abs 7#64), []) := by decide
theorem test_decode_lessThan :
    decode (words [107, 8, 9, 10]) = .ok (.lessThan (.imm 8#64) (.abs 9#64) (.abs 10#64), []) := by decide
theorem test_decode_equals :
    decode (words [22108, 8, 9, 10]) = .ok (.equals (.imm 8#64) (.rel 9#64) (.rel 10#64), []) := by decide
theorem test_decode_adjustRelativeBase : decode (words [9, 4]) = .ok (.adjustRelativeBase (.abs 4#64), []) := by decide
theorem test_decode_halt : decode (words [99, 1]) = .ok (.halt, [1#64]) := by decide
theorem test_decode_too_short : decode (words [1105, 1]) = .error .tooShort := by decide

/-- DEC1 to DEC5 (OP 0, 10, 98; negative words). -/
theorem test_decode_invalid_opcode :
    (words [0, 10, 98, -1, -99]).all (fun w => decide (decodeHead w = .error .invalidOpcode)) = true := by decide
/-- DEC6 to DEC12. -/
theorem test_decode_reserved_digit :
    (words [100099, 100001, 199, 2099, 22299, 1104, 399]).all
      (fun w => decide (decodeHead w = .error .reservedDigit)) = true := by decide
/-- DEC13 to DEC15. -/
theorem test_decode_invalid_mode :
    (words [301, 309, 30001]).all (fun w => decide (decodeHead w = .error .invalidMode)) = true := by decide
/-- DEC16 to DEC19. -/
theorem test_decode_write_target :
    (words [10001, 11101, 12208, 103]).all (fun w => decide (decodeHead w = .error .writeTarget)) = true := by decide
/-- The largest word: its low two digits are 07, and its digits of weight 10^5 and more are not 0. -/
theorem test_decode_top_word : decodeHead 9223372036854775807#64 = .error .reservedDigit := by decide

/-- The table's numbering: word k is bits 64k+63..64k, so 5 in bits 127..64 is operand 1. -/
theorem test_decodeTableWord : decodeTableWord 128 (104 + 5 * 2 ^ 64) = some (.output (.imm 5#64)) := by decide
/-- Bits above `nbits` are 0. -/
theorem test_decodeTableWord_short : decodeTableWord 64 (104 + 5 * 2 ^ 64) = some (.output (.imm 0#64)) := by decide
/-- The instruction placed after reset is the first that runs. -/
theorem test_withFetchWord_runs :
    after (State.reset.withFetchWord 128 (104 + 5 * 2 ^ 64)) (fun t => (t.outQ, t.pc)) = some ([5#64], 2#64) := by decide
/-- At `MAX_ADDR` there is no room: the instruction is placed at 0. -/
theorem test_withFetchWord_at_top :
    after ({ State.reset with pc := 9223372036854775807#64 }.withFetchWord 64 99) (fun t => (t.state, t.pc)) =
      some (.halted, 0#64) := by decide

/-! ### One step of each instruction -/

/-- ALU1. -/
theorem test_add : after (engine [1, 5, 6, 7, 99, 10, 20, 0]) (fun t => (t.mem.read 7, t.pc)) = some (30#64, 4#64) := by
  decide
/-- ALU2 and ALU3: the same Add wraps, or faults and writes nothing. -/
theorem test_add_overflow :
    after (engine [1101, 9223372036854775807, 1, 7, 4, 7, 99, 0]) (fun t => (t.mem.read 7).toInt) =
      some (-9223372036854775808) ∧
    faultAfter (engineF [1101, 9223372036854775807, 1, 7, 4, 7, 99, 0]) = some (8, 0, 1101, 0) ∧
    after (engineF [1101, 9223372036854775807, 1, 7, 4, 7, 99, 0]) (fun t => t.mem.read 7) = some 0#64 := by decide
/-- S1: the exact product. -/
theorem test_multiply :
    after (engine [1102, 34915192, 34915192, 7, 4, 7, 99, 0]) (fun t => (t.mem.read 7).toInt) = some 1219070632396864 := by
  decide
/-- ALU6 and ALU7. -/
theorem test_multiply_overflow :
    after (engine [1102, -9223372036854775808, -1, 7, 4, 7, 99, 0]) (fun t => (t.mem.read 7).toInt) =
      some (-9223372036854775808) ∧
    faultAfter (engineF [1102, -9223372036854775808, -1, 7, 4, 7, 99, 0]) = some (8, 0, 1102, 0) := by decide
/-- ALU9 and ALU10: the comparison is signed. -/
theorem test_lessThan_signed :
    after (engine [1107, -1, 0, 5, 99, 7]) (fun t => t.mem.read 5) = some 1#64 ∧
    after (engine [1107, 0, -1, 5, 99, 7]) (fun t => t.mem.read 5) = some 0#64 := by decide
/-- ALU12: x < x is false. -/
theorem test_lessThan_same_cell : after (engine [7, 0, 0, 5, 99, 7]) (fun t => t.mem.read 5) = some 0#64 := by decide
/-- ALU13 and ALU14. -/
theorem test_equals :
    after (engine [1108, 8, 8, 5, 99, -1]) (fun t => t.mem.read 5) = some 1#64 ∧
    after (engine [1108, -1, 1, 5, 99, 7]) (fun t => t.mem.read 5) = some 0#64 := by decide
/-- ALU15: sources that are also the target, and the instruction's own word. -/
theorem test_add_own_word : after (engine [1, 0, 0, 0, 99]) (fun t => (t.mem.read 0, t.pc)) = some (2#64, 4#64) := by decide
/-- IO1, moves 1 and 2. -/
theorem test_input_first_step :
    after (engine [3, 0, 4, 0, 99]) (fun t => (t.statusRegister 0, t.inTarget, t.pc)) = some (some 5#64, 0, 0#64) ∧
    noStep (step { engine [3, 0, 4, 0, 99] with state := .waitingForInput }) = some .inputBlocked := by decide
/-- IO1, move 4; IO3, last step. -/
theorem test_input_second_step :
    after { engine [3, 0, 4, 0, 99] with state := .waitingForInput, inQ := [42#64] }
      (fun t => (t.statusRegister 0, t.mem.read 0, t.pc, t.inQ)) = some (some 0#64, 42#64, 2#64, []) ∧
    after { engine [3, 0, 99] with state := .waitingForInput, inClosed := true }
      (fun t => (t.statusRegister 0, t.faultCause.code, t.faultWord)) = some (some 27#64, 6, 3#64) := by decide
/-- IO10; IO11, last step. -/
theorem test_output :
    after (engine [104, -7, 99]) (fun t => (t.outQ, t.pc)) = some ([-7#64], 2#64) ∧
    after { engine [104, 1, 104, 2, 99] with pc := 2#64, outQ := [1#64], outDisc := true }
      (fun t => (t.statusRegister 0, t.faultCause.code, t.faultPc, t.faultWord, t.outQ)) =
      some (some 51#64, 7, 2#64, 104#64, [1#64]) := by decide
/-- IO12: the second Output has no step while `OutQ` is full. -/
theorem test_output_full :
    noStep (step { buildEngine (words [104, 1, 104, 2, 99]) none { ovfPolicy := .wrap, outCap := some 1 } with
      pc := 2#64, outQ := [1#64] }) = some .outputBlocked := by decide
/-- JMP5 (−2^63 is true), JMP2. -/
theorem test_jumpIfTrue :
    after (engine [1105, -9223372036854775808, 5, 104, 0, 99]) (fun t => t.pc) = some 5#64 ∧
    after (engine [1105, 0, 7, 104, 0, 99, 0, 104, 1, 99]) (fun t => t.pc) = some 3#64 := by decide
/-- JMP4, JMP8. -/
theorem test_jumpIfFalse :
    after (engine [1006, 7, 6, 104, 1, 99, 104, 0, 99]) (fun t => t.pc) = some 6#64 ∧
    after (engine [1106, 1, 0, 104, 3, 99]) (fun t => t.pc) = some 3#64 := by decide
/-- ARB2; ARB3's second instruction, whose operand uses the old `rb`. -/
theorem test_adjustRelativeBase :
    after (engine [209, 3, 99, 7]) (fun t => (t.rb, t.pc)) = some (7#64, 2#64) ∧
    after { engine [109, 3, 209, 0, 99] with pc := 2#64, rb := 3#64 } (fun t => (t.rb, t.pc)) = some (3#64, 4#64) := by
  decide
/-- ARB6 and ARB7's second instruction. -/
theorem test_adjustRelativeBase_overflow :
    after { engine [109, 1] with rb := 9223372036854775807#64 } (fun t => t.rb.toInt) = some (-9223372036854775808) ∧
    after { engineF [109, 1] with rb := 9223372036854775807#64 } (fun t => (t.faultCause.code, t.rb.toInt)) =
      some (8, 9223372036854775807) := by decide
/-- HLT1, with the input open (S9). -/
theorem test_halt :
    after (engine [99]) (fun t => (t.statusRegister 0, t.pc)) = some (some 18#64, 0#64) ∧
    noStep (step { engine [99] with state := .halted }) = some .engineHalted ∧
    noStep (step { engine [99] with state := .faulted }) = some .engineFaulted := by decide

/-! ### Addresses at the edges -/

/-- DEC20, DEC21, IO6, ARB4: an address below 0. -/
theorem test_address_negative :
    faultAfter (engine [1, -1, 0, 0, 99]) = some (5, 0, 1, -1) ∧
    faultAfter (engine [201, -1, 0, 0, 99]) = some (5, 0, 201, -1) ∧
    faultAfter (engine [3, -1, 99]) = some (5, 0, 3, -1) ∧
    faultAfter { engine [109, 19, 204, -34, 99] with pc := 2#64, rb := 19#64 } = some (5, 2, 204, -15) := by decide
/-- DEC22: the sum is exact, and the two halves of FAULT_ADDR. -/
theorem test_address_past_top :
    after { engine [109, 1, 2201, 9223372036854775807, 0, 0, 99] with pc := 2#64, rb := 1#64 }
      (fun t => (t.faultCause.code, t.faultAddr.toInt, t.statusRegister 4, t.statusRegister 5)) =
      some (5, 9223372036854775808, some 0x8000000000000000#64, some 0#64) := by decide
/-- DEC23: the top address is legal. -/
theorem test_address_top :
    after (engine [1101, 7, 0, 9223372036854775807, 4, 9223372036854775807, 99]) (fun t => t.mem.read maxAddr) =
      some 7#64 := by decide
/-- DEC24, DEC26: at `MAX_ADDR` the successor check faults, after the opcode check. -/
theorem test_fetch_at_top :
    faultAfter { State.reset with pc := 9223372036854775807#64, mem := [(maxAddr, 99#64)] } =
      some (5, 9223372036854775807, 99, 9223372036854775808) ∧
    faultAfter { State.reset with pc := 9223372036854775807#64 } = some (1, 9223372036854775807, 0, 0) := by decide
/-- DEC25: one word lower the Halt runs. -/
theorem test_fetch_below_top :
    after { State.reset with pc := 9223372036854775806#64, mem := [(maxAddr - 1, 99#64)] } (fun t => t.state) =
      some .halted := by decide
/-- DEC28's second step; the FAULT_ADDR halves of −3. -/
theorem test_fetch_negative :
    faultAfter { State.reset with pc := -3#64 } = some (5, -3, 0, -3) ∧
    after { State.reset with pc := -3#64 } (fun t => (t.statusRegister 4, t.statusRegister 5)) =
      some (some (-3#64), some (-1#64)) := by decide
/-- DEC27; a fault inside the image records its word (DEC19). -/
theorem test_fault_entry_records :
    faultAfter (engine []) = some (1, 0, 0, 0) ∧ faultAfter (engine [103, 5, 99]) = some (4, 0, 103, 0) ∧
    after (engine [103, 5, 99]) (fun t => (t.state, t.outClosed, t.pc)) = some (.faulted, true, 0#64) := by decide

/-! ### The host -/

/-- S11: the seed stands at address 0. -/
theorem test_build_seed :
    hostMove (.build (words [1, 5, 0]) (some 2#64) Params.default) none =
      .done { State.reset with mem := [(0, 2#64), (1, 5#64)] } .none := by decide
/-- IO1, move 7: the value, then END. -/
theorem test_out_pop :
    { engine [99] with outQ := [42#64], outClosed := true }.outPop =
      .done { engine [99] with outQ := [], outClosed := true } (.word 42#64) ∧
    { engine [99] with outClosed := true }.outPop = .done { engine [99] with outClosed := true } .endOfStream ∧
    (engine [99]).outPop = .blocked := by decide
/-- HLT1 under the batch host: STATUS 26, no output. -/
theorem test_batch_hlt1 :
    (batchRun 2 (words [99]) none Params.default []).map (fun r => (r.1.statusRegister 0, r.2)) = some (some 26#64, []) := by
  decide

/-! ### Witnesses: states and operands that meet the hypotheses of the obligations -/

/-- A running engine with the word `w` at `pc` = 0. -/
def at0 (w : Int) : State := engine [w]

/-- An engine that waits in the Input at `pc` = 0, with values 10 and 20 at addresses 8 and 9, and `rb` = 1. -/
def waiter : State := { engine [3, 7, 99, 0, 0, 0, 0, 0, 10, 20] with state := .waitingForInput, inTarget := 7, rb := 1#64 }

/-- The same engine, running. -/
def runner : State := { waiter with state := .running }

/-- `OVF_POLICY` = FAULT in `runner`. -/
def runnerF : State := { runner with params := { ovfPolicy := .fault, outCap := some 1 } }

theorem test_witness_OpcodeWordRoundTrip :
    Head.legal ⟨.add, .immediate, .relative, .relative⟩ = true ∧ Head.legal ⟨.halt, .absolute, .absolute, .absolute⟩ = true ∧
    decodeHead 22107#64 = .ok ⟨.lessThan, .immediate, .relative, .relative⟩ := by decide

theorem test_witness_EncodedInstructionsDecode : (Instr.add (.imm 5#64) (.rel (-6#64)) (.rel 7#64)).wf = true := by decide

theorem test_witness_DecodedWordsReencode : ∃ ws rest i, decode ws = .ok (i, rest) :=
  ⟨[104#64, 9#64, 99#64], [99#64], .output (.imm 9#64), by decide⟩

theorem test_witness_LegalOpcodeWordsAreTheTable :
    decodeHead 22208#64 = .ok ⟨.equals, .relative, .relative, .relative⟩ ∧ (∃ row ∈ legalWordTable, row.1 = 99) := by decide

/-- One word per clause: negative, OP 0 and OP 98, 100000 and more (the bound is met by 100001), a digit fault at each of
the positions 1 to 3 and of both kinds, and the write position immediate. -/
theorem test_witness_IllegalOpcodeWordsFault :
    (at0 (-1)).state = .running ∧ 0 ≤ (at0 (-1)).pc.toInt ∧ ((at0 (-1)).mem.read 0).toInt < 0 ∧
    ((at0 98).mem.read 0).toNat % 100 ∉ [1, 2, 3, 4, 5, 6, 7, 8, 9, 99] ∧
    ((at0 100001).mem.read 0).toNat % 100 = Opcode.add.code ∧ 100000 ≤ ((at0 100001).mem.read 0).toNat ∧
    positionFault 3 1 301 = some .invalidMode ∧ positionFault 0 1 399 = some .reservedDigit ∧
    positionFault 3 1 3001 = none ∧ positionFault 3 2 3001 = some .invalidMode ∧
    positionFault 1 2 1104 = some .reservedDigit ∧ positionFault 3 1 30001 = none ∧ positionFault 3 2 30001 = none ∧
    positionFault 3 3 30001 = some .invalidMode ∧ positionFault 2 3 10005 = some .reservedDigit ∧
    (∀ j : Fin 3, positionFault 3 (j + 1) 12208 = none) ∧ Opcode.equals.writePosition = some 3 ∧ digit 4 12208 = 1 := by
  decide

/-- `pc` = −1; Halt at `MAX_ADDR` (the successor is one past the top) and at `MAX_ADDR` − 1. -/
theorem test_witness_FetchStaysInAddressSpace :
    ({ State.reset with pc := -1#64 } : State).pc.toInt < 0 ∧
    decodeHead (Memory.read [(maxAddr, 99#64)] (9223372036854775807#64 : Word).toNat) =
      .ok ⟨.halt, .absolute, .absolute, .absolute⟩ ∧
    (maxAddr : Int) < (9223372036854775807#64 : Word).toInt + Opcode.halt.arity + 1 ∧
    fetch { State.reset with pc := 9223372036854775806#64, mem := [(maxAddr - 1, 99#64)] } = .ok .halt := by decide

theorem test_witness_StepRunsDecodedInstruction :
    runner.state = .running ∧ 0 ≤ runner.pc.toInt ∧ runner.pc.toInt + Instr.length (.input (.abs 7#64)) ≤ maxAddr ∧
    decode (runner.mem.words runner.pc.toNat 4) = .ok (.input (.abs 7#64), [99#64, 0#64]) := by decide

theorem test_witness_StepRunsEncodedInstruction :
    runner.state = .running ∧ 0 ≤ runner.pc.toInt ∧ runner.pc.toInt + Instr.length (.input (.abs 7#64)) ≤ maxAddr ∧
    (Instr.input (.abs 7#64)).wf = true ∧ runner.mem.words runner.pc.toNat 2 = encode (.input (.abs 7#64)) := by decide

/-- Raw 0 and −1; `rb` = 1 with the raw words −1 (sum 0), −2 (below 0), `MAX_ADDR` − 1 (the top) and `MAX_ADDR`. -/
theorem test_witness_OperandModesResolve :
    0 ≤ (0#64 : Word).toInt ∧ (-1#64 : Word).toInt < 0 ∧ 0 ≤ runner.rb.toInt + (-1#64 : Word).toInt ∧
    runner.rb.toInt + (9223372036854775806#64 : Word).toInt ≤ maxAddr ∧ runner.rb.toInt + (-2#64 : Word).toInt < 0 ∧
    (maxAddr : Int) < runner.rb.toInt + (9223372036854775807#64 : Word).toInt := by decide

/-- The second operand is the first bad one. -/
theorem test_witness_FirstBadOperandAddressFaults :
    (Instr.add (.abs 8#64) (.rel (-2#64)) (.abs (-5#64))).wf = true ∧
    firstAddressFault runner.rb (Instr.add (.abs 8#64) (.rel (-2#64)) (.abs (-5#64))).operands = some (.address (-1)) := by
  decide

/-- Sources in all three modes, both kinds of target; the exact sum 2^63 − 1 fits and 2^63 does not. -/
theorem test_witness_AddStoresSumOrOverflows :
    resolve runnerF.rb (.imm 9223372036854775807#64) = .ok (.imm 9223372036854775807#64) ∧
    resolve runnerF.rb (.abs 5#64) = .ok (.mem 5) ∧ resolve runnerF.rb (.rel 7#64) = .ok (.mem 8) ∧
    resolveTarget runnerF.rb (.abs 5#64) = .ok 5 ∧ resolveTarget runnerF.rb (.rel 5#64) = .ok 6 ∧
    fits64 ((runnerF.value (.imm 9223372036854775807#64)).toInt + (runnerF.value (.mem 5)).toInt) = true ∧
    runnerF.params.ovfPolicy = .fault ∧
    fits64 ((runnerF.value (.imm 9223372036854775807#64)).toInt + (runnerF.value (.imm 1#64)).toInt) = false ∧
    runner.params.ovfPolicy = .wrap := by decide

/-- −2^62 · 2 = −2^63 fits, 2^62 · 2 = 2^63 does not. -/
theorem test_witness_MultiplyStoresProductOrOverflows :
    resolve runnerF.rb (.imm 2#64) = .ok (.imm 2#64) ∧ resolveTarget runnerF.rb (.rel (-1#64)) = .ok 0 ∧
    fits64 ((runnerF.value (.imm (-4611686018427387904#64))).toInt * (runnerF.value (.imm 2#64)).toInt) = true ∧
    runnerF.params.ovfPolicy = .fault ∧
    fits64 ((runnerF.value (.imm 4611686018427387904#64)).toInt * (runnerF.value (.imm 2#64)).toInt) = false := by decide

/-- The comparison comes out both ways. -/
theorem test_witness_LessThanStoresSignedComparison :
    resolve runner.rb (.abs 8#64) = .ok (.mem 8) ∧ resolve runner.rb (.rel 8#64) = .ok (.mem 9) ∧
    resolveTarget runner.rb (.abs 9223372036854775807#64) = .ok maxAddr ∧
    (runner.value (.mem 8)).toInt < (runner.value (.mem 9)).toInt ∧
    ¬ (runner.value (.mem 9)).toInt < (runner.value (.mem 9)).toInt := by decide

/-- The words are equal, and they are not. -/
theorem test_witness_EqualsStoresWordEquality :
    resolve runner.rb (.abs 8#64) = .ok (.mem 8) ∧ resolve runner.rb (.imm 10#64) = .ok (.imm 10#64) ∧
    resolveTarget runner.rb (.rel (-1#64)) = .ok 0 ∧ runner.value (.mem 8) = runner.value (.imm 10#64) ∧
    runner.value (.mem 9) ≠ runner.value (.imm 10#64) := by decide

theorem test_witness_AliasedSourcesAreReadFirst :
    runner.mem.wf = true ∧ resolveTarget runner.rb (.abs 8#64) = .ok 8 ∧ resolve runner.rb (.rel 8#64) = .ok (.mem 9) ∧
    runner.params.ovfPolicy = .wrap := by decide

/-- A target at the top address; a target one below 0, and an immediate one. -/
theorem test_witness_InputBeginsWait :
    resolveTarget runner.rb (.rel 9223372036854775806#64) = .ok maxAddr ∧
    resolveTarget runner.rb (.rel (-2#64)) = .error (.address (-1)) ∧
    resolveTarget runner.rb (.imm 0#64) = .error (.head .writeTarget) := by decide

/-- A value left in a closed queue; an empty closed queue; an empty open one. -/
theorem test_witness_InputCompletesOrFaultsOrBlocks :
    ({ waiter with inQ := [42#64], inClosed := true } : State).state = .waitingForInput ∧
    ({ waiter with inQ := [42#64], inClosed := true } : State).inQ = [42#64] ∧
    ({ waiter with inClosed := true } : State).inQ = [] ∧ waiter.inQ = [] ∧ waiter.inClosed = false := by decide

/-- `OUT_CAP` = 1: room at length 0, none at length 1; disconnected. -/
theorem test_witness_OutputPushesOrFaultsOrBlocks :
    resolve runnerF.rb (.abs 8#64) = .ok (.mem 8) ∧ ({ runnerF with outDisc := true } : State).outDisc = true ∧
    runnerF.params.outCap = some 1 ∧ runnerF.outDisc = false ∧ runnerF.outQ.length < 1 ∧
    ({ runnerF with outQ := [3#64] } : State).outQ.length = 1 := by decide

/-- Both jumps: the conditions `mem[8]` = 10 and #0, the target `mem[9]`. -/
theorem test_witness_JumpIfTrueSetsPc :
    resolve runner.rb (.abs 8#64) = .ok (.mem 8) ∧ resolve runner.rb (.rel 8#64) = .ok (.mem 9) ∧
    runner.value (.mem 8) ≠ 0#64 ∧ runner.value (.imm 0#64) = 0#64 := by decide
theorem test_witness_JumpIfFalseSetsPc :
    resolve runner.rb (.imm 0#64) = .ok (.imm 0#64) ∧ resolve runner.rb (.rel 8#64) = .ok (.mem 9) ∧
    runner.value (.imm 0#64) = 0#64 ∧ runner.value (.mem 8) ≠ 0#64 := by decide

theorem test_witness_NegativeJumpTargetFaultsAtNextFetch :
    runner.state = .running ∧ resolve runner.rb (.abs 8#64) = .ok (.mem 8) ∧
    resolve runner.rb (.imm (-1#64)) = .ok (.imm (-1#64)) ∧ (runner.value (.imm (-1#64))).toInt < 0 ∧
    runner.value (.mem 8) ≠ 0#64 ∧ runner.value (.imm 0#64) = 0#64 := by decide

/-- JMP9, and the same with JumpIfFalse. -/
theorem test_witness_SelfJumpRunsForEver :
    fetch (engine [1105, 1, 0]) = .ok (.jumpIfTrue (.imm 1#64) (.imm 0#64)) ∧
    fetch (engine [1106, 0, 0]) = .ok (.jumpIfFalse (.imm 0#64) (.imm 0#64)) ∧ (engine [1105, 1, 0]).state = .running ∧
    (engine [1105, 1, 0]).value (.imm 0#64) = (engine [1105, 1, 0]).pc ∧
    (engine [1105, 1, 0]).value (.imm 1#64) ≠ 0#64 := by decide

/-- `rb` = 1: a sum of 2^63 − 1 fits, one of 2^63 does not. -/
theorem test_witness_AdjustRelativeBaseAddsToRb :
    resolve runnerF.rb (.imm 9223372036854775806#64) = .ok (.imm 9223372036854775806#64) ∧
    fits64 (runnerF.rb.toInt + (runnerF.value (.imm 9223372036854775806#64)).toInt) = true ∧
    runnerF.params.ovfPolicy = .fault ∧
    fits64 (runnerF.rb.toInt + (runnerF.value (.imm 9223372036854775807#64)).toInt) = false := by decide

theorem test_witness_PseudoInstructionsExpand :
    resolve runner.rb (.rel 7#64) = .ok (.mem 8) ∧ resolveTarget runner.rb (.rel 7#64) = .ok 8 := by decide

/-- Each of the four instructions goes on; Add also faults, under FAULT. -/
theorem test_witness_ArithmeticFrame :
    (∃ t, exec (.add (.abs 8#64) (.abs 9#64) (.rel 4#64)) runner = .next t ∧ t.mem.read 5 = 30#64) ∧
    (∃ t, exec (.multiply (.abs 8#64) (.abs 9#64) (.rel 4#64)) runner = .next t ∧ t.mem.read 5 = 200#64) ∧
    (∃ t, exec (.lessThan (.abs 8#64) (.abs 9#64) (.rel 4#64)) runner = .next t ∧ t.mem.read 5 = 1#64) ∧
    (∃ t, exec (.equals (.abs 8#64) (.imm 10#64) (.rel 4#64)) runner = .next t ∧ t.mem.read 5 = 1#64) ∧
    ∃ t, exec (.add (.imm 9223372036854775807#64) (.abs 8#64) (.abs 5#64)) runnerF = .next t ∧ t.state = .faulted :=
  ⟨⟨_, rfl, rfl⟩, ⟨_, rfl, rfl⟩, ⟨_, rfl, rfl⟩, ⟨_, rfl, rfl⟩, ⟨_, rfl, rfl⟩⟩

theorem test_witness_NonStoringFrame :
    (∃ t, exec (.input (.abs 7#64)) runner = .next t ∧ t.state = .waitingForInput) ∧
    (∃ t, exec (.output (.abs 8#64)) runner = .next t ∧ t.outQ = [10#64]) ∧
    (∃ t, exec (.jumpIfTrue (.abs 8#64) (.abs 9#64)) runner = .next t ∧ t.pc = 20#64) ∧
    (∃ t, exec (.jumpIfFalse (.abs 8#64) (.abs 9#64)) runner = .next t ∧ t.pc = 3#64) ∧
    (∃ t, exec (.adjustRelativeBase (.abs 8#64)) runner = .next t ∧ t.rb = 11#64) ∧
    (∃ t, exec .halt runner = .next t ∧ t.state = .halted) ∧
    ∃ t, exec (.output (.abs (-1#64))) runner = .next t ∧ t.state = .faulted :=
  ⟨⟨_, rfl, rfl⟩, ⟨_, rfl, rfl⟩, ⟨_, rfl, rfl⟩, ⟨_, rfl, rfl⟩, ⟨_, rfl, rfl⟩, ⟨_, rfl, rfl⟩, ⟨_, rfl, rfl⟩⟩

/-- A completing Input stores to its latch, an Add to its target; address 8 is stored to by neither. -/
theorem test_witness_StepStoresOnlyToItsTarget :
    (∃ t, step { waiter with inQ := [42#64] } = .next t) ∧ (∃ t, step (engine [1, 5, 6, 7, 99]) = .next t) ∧
    stepStoreAddress { waiter with inQ := [42#64] } = some 7 ∧ stepStoreAddress (engine [1, 5, 6, 7, 99]) = some 7 :=
  ⟨⟨_, rfl⟩, ⟨_, rfl⟩, rfl, rfl⟩

theorem test_witness_OnlyAdjustRelativeBaseWritesRb :
    ∃ t, step (engine [109, 7]) = .next t ∧ t.rb ≠ (engine [109, 7]).rb := ⟨_, rfl, by decide⟩

theorem test_witness_StepsTouchQueuesOnlyByInputAndOutput :
    (∃ t, step { waiter with inQ := [42#64] } = .next t ∧ t.inQ = []) ∧
    ∃ t, step (engine [104, 5]) = .next t ∧ t.outQ = [5#64] := ⟨⟨_, rfl, rfl⟩, ⟨_, rfl, rfl⟩⟩

/-- One running engine per clause: Halt, Input, the jumps, and an instruction of the last clause. -/
theorem test_witness_PcMovesByLengthOrJump :
    (fetch (engine [99]) = .ok .halt ∧ ∃ t, exec .halt (engine [99]) = .next t ∧ t.state ≠ .faulted) ∧
    (fetch runner = .ok (.input (.abs 7#64)) ∧ ∃ t, exec (.input (.abs 7#64)) runner = .next t ∧ t.state ≠ .faulted) ∧
    (fetch (engine [1105, 1, 7]) = .ok (.jumpIfTrue (.imm 1#64) (.imm 7#64)) ∧
      ∃ t, exec (.jumpIfTrue (.imm 1#64) (.imm 7#64)) (engine [1105, 1, 7]) = .next t ∧ t.state ≠ .faulted) ∧
    (fetch (engine [1106, 1, 7]) = .ok (.jumpIfFalse (.imm 1#64) (.imm 7#64)) ∧
      ∃ t, exec (.jumpIfFalse (.imm 1#64) (.imm 7#64)) (engine [1106, 1, 7]) = .next t ∧ t.state ≠ .faulted) ∧
    (fetch (engine [104, 5]) = .ok (.output (.imm 5#64)) ∧
      ∃ t, exec (.output (.imm 5#64)) (engine [104, 5]) = .next t ∧ t.state ≠ .faulted) :=
  ⟨⟨rfl, _, rfl, by decide⟩, ⟨rfl, _, rfl, by decide⟩, ⟨rfl, _, rfl, by decide⟩, ⟨rfl, _, rfl, by decide⟩,
    ⟨rfl, _, rfl, by decide⟩⟩

/-- A row per clause: Halt, Input, an Output with room in a queue of 1, a fault of the fetch, one of an operand, a full
queue, and the wait's three ways. -/
theorem test_witness_StateMachineTransitions :
    (fetch (engine [99]) = .ok .halt ∧ ∃ t, step (engine [99]) = .next t) ∧
    (fetch runner = .ok (.input (.abs 7#64)) ∧ resolveTarget runner.rb (.abs 7#64) = .ok 7) ∧
    (fetch { runner with mem := [(0, 104#64)] } = .ok (.output (.imm 0#64)) ∧
      firstAddressFault runner.rb (Instr.output (.imm 0#64)).operands = none ∧ runner.params.ovfPolicy = .wrap ∧
      runner.outDisc = false ∧ runner.outQ.length < 1) ∧
    fetch State.reset = .error (.head .invalidOpcode) ∧
    (fetch (engine [4, -1]) = .ok (.output (.abs (-1#64))) ∧
      firstAddressFault (engine [4, -1]).rb (Instr.output (.abs (-1#64))).operands = some (.address (-1))) ∧
    (fetch { runnerF with mem := [(0, 104#64)], outQ := [3#64] } = .ok (.output (.imm 0#64)) ∧
      resolve runnerF.rb (.imm 0#64) = .ok (.imm 0#64) ∧ runnerF.params.outCap = some 1) ∧
    (waiter.state = .waitingForInput ∧ ({ waiter with inQ := [42#64] } : State).inQ ≠ []) ∧
    (waiter.inQ = [] ∧ ({ waiter with inClosed := true } : State).inClosed = true ∧ waiter.inClosed = false) :=
  ⟨⟨rfl, _, rfl⟩, ⟨rfl, rfl⟩, ⟨rfl, rfl, rfl, rfl, by decide⟩, rfl, ⟨rfl, rfl⟩, ⟨rfl, rfl, rfl⟩, ⟨rfl, by decide⟩,
    ⟨rfl, rfl, rfl⟩⟩

/-- An ended engine of each kind, an empty open wait, and an Output facing a full queue of 1. -/
theorem test_witness_StepsNotTakenAreAnsweredByName :
    noStep (step { engine [99] with state := .halted }) = some .engineHalted ∧
    noStep (step { engine [99] with state := .faulted }) = some .engineFaulted ∧
    (waiter.state = .waitingForInput ∧ waiter.inQ = [] ∧ waiter.inClosed = false) ∧
    (resolve runnerF.rb (.imm 0#64) = .ok (.imm 0#64) ∧ runnerF.outDisc = false ∧ runnerF.params.outCap = some 1 ∧
      ({ runnerF with mem := [(0, 104#64)], outQ := [3#64] } : State).outQ.length = 1 ∧ runnerF.state = .running ∧
      fetch { runnerF with mem := [(0, 104#64)], outQ := [3#64] } = .ok (.output (.imm 0#64))) := by decide

/-- A step that is enabled, and each of the two that are not; the queue at `OUT_CAP` = 1. -/
theorem test_witness_LiveEngineBlocksInExactlyTwoSituations :
    (runner.state = .running ∧ runner.params.outCap = none ∧ ∃ t, step runner = .next t) ∧
    noStep (step waiter) = some .inputBlocked ∧
    noStep (step { runnerF with mem := [(0, 104#64)], outQ := [3#64] }) = some .outputBlocked ∧
    ({ runnerF with mem := [(0, 104#64)], outQ := [3#64] } : State).outQ.length ≤ 1 :=
  ⟨⟨rfl, rfl, _, rfl⟩, by decide, by decide, by decide⟩

/-- An operand's address, `pc` itself and the successor past the top; and a fault without an address. -/
theorem test_witness_FaultEntryIsPrecise :
    (∃ t, step { State.reset with pc := 9223372036854775807#64, mem := [(maxAddr, 99#64)] } = .next t ∧
      t.state = .faulted ∧ t.faultCause = .address) ∧
    (∃ t, step (engine [1, -1, 0, 0]) = .next t ∧ t.state = .faulted ∧ t.faultCause = .address) ∧
    (∃ t, step { State.reset with pc := -1#64 } = .next t ∧ t.state = .faulted ∧ t.faultCause = .address) ∧
    ∃ t, step State.reset = .next t ∧ t.state = .faulted ∧ t.faultCause ≠ .address :=
  ⟨⟨_, rfl, rfl, rfl⟩, ⟨_, rfl, rfl, rfl⟩, ⟨_, rfl, rfl, rfl⟩, ⟨_, rfl, rfl, by decide⟩⟩

/-- A fault at decode, in execution, in the wait, and OVERFLOW. -/
theorem test_witness_FaultCausesByInstruction :
    (fetch State.reset = .error (.head .invalidOpcode) ∧ ∃ t, step State.reset = .next t ∧ t.state = .faulted) ∧
    (fetch (engine [4, -1]) = .ok (.output (.abs (-1#64))) ∧ ∃ t, step (engine [4, -1]) = .next t ∧ t.state = .faulted) ∧
    (∃ t, step { waiter with inClosed := true } = .next t ∧ t.state = .faulted) ∧
    ∃ t, step (engineF [1101, 9223372036854775807, 1, 0]) = .next t ∧ t.faultCause = .overflow :=
  ⟨⟨rfl, _, rfl, rfl⟩, ⟨rfl, _, rfl, rfl⟩, ⟨_, rfl, rfl⟩, ⟨_, rfl, rfl⟩⟩

/-- After Halt the host pushes, closes and reads a register. -/
theorem test_witness_EndedRunsStayEnded :
    ∃ es t, Run { engine [99] with state := .halted, outClosed := true } es t ∧ es.length = 3 ∧
      ({ engine [99] with state := .halted, outClosed := true } : State).ended = true :=
  ⟨_, _, .cons (m := .host (.inPush 1#64)) rfl (.cons (m := .host .inClose) rfl
    (.cons (m := .host (.readReg 0)) rfl (.nil _))), rfl, rfl⟩

theorem test_witness_BuildMeetsInvariant :
    hostMove (.build (words [3, 0, 99]) (some 4#64) { ovfPolicy := .fault, outCap := some 1 }) none =
      .done (buildEngine (words [3, 0, 99]) (some 4#64) { ovfPolicy := .fault, outCap := some 1 }) .none := by decide

/-- A waiting engine, with memory listed, meets the invariant. -/
theorem test_waiter_inv : waiter.Inv where
  memCanonical := by decide
  paramsLegal := by decide
  outWithinCap := fun n h => absurd h (by simp [waiter, engine, buildEngine, Params.default])
  targetInRange := by decide
  waitingOnInput := fun _ => ⟨.abs 7#64, by decide, by decide⟩
  closedWhenEnded := by decide
  clearUntilFault := fun _ => by decide
  recordAfterFault := fun h => absurd h (by decide)

theorem test_waiter_pushed_inv : State.Inv { waiter with inQ := [42#64] } where
  memCanonical := test_waiter_inv.memCanonical
  paramsLegal := test_waiter_inv.paramsLegal
  outWithinCap := test_waiter_inv.outWithinCap
  targetInRange := test_waiter_inv.targetInRange
  waitingOnInput := fun _ => ⟨.abs 7#64, by decide, by decide⟩
  closedWhenEnded := by decide
  clearUntilFault := fun _ => by decide
  recordAfterFault := fun h => absurd h (by decide)

theorem test_witness_StepKeepsInvariant :
    State.Inv { waiter with inQ := [42#64] } ∧ ∃ t, step { waiter with inQ := [42#64] } = .next t :=
  ⟨test_waiter_pushed_inv, _, rfl⟩

/-- The last clause: the Input of `waiter` completes. -/
theorem test_witness_PcMovesByLengthOrJump_wait :
    State.Inv { waiter with inQ := [42#64] } ∧ ({ waiter with inQ := [42#64] } : State).state = .waitingForInput ∧
    ∃ t, step { waiter with inQ := [42#64] } = .next t ∧ t.state ≠ .faulted :=
  ⟨test_waiter_pushed_inv, rfl, _, rfl, by decide⟩

theorem test_witness_HostMovesKeepInvariant :
    waiter.Inv ∧ hostMove (.inPush 42#64) (some waiter) = .done { waiter with inQ := [42#64] } .none :=
  ⟨test_waiter_inv, rfl⟩

/-- Built, then stepped into the wait. -/
theorem test_witness_ReachableStatesMeetInvariant : ∃ s, Reachable s ∧ s.state = .waitingForInput :=
  ⟨_, .move (m := .engine) (.build (image := [3#64, 7#64]) (seed := none) (params := Params.default) rfl) rfl, rfl⟩

/-- A push, the Input's second step, an Output and a pop: one word passes both queues. -/
theorem test_witness_QueuesAreFifoInEveryRun :
    ∃ es t, Run { waiter with mem := [(0, 3#64), (1, 7#64), (2, 4#64), (3, 7#64)] } es t ∧
      es = [.pushed 5#64, .consumed 5#64, .emitted 5#64, .popped 5#64] :=
  ⟨_, _, .cons (m := .host (.inPush 5#64)) rfl (.cons (m := .engine) rfl (.cons (m := .engine) rfl
    (.cons (m := .host .outPop) rfl (.nil _)))), rfl⟩

theorem test_witness_QueueMovesCommuteWithEngineSteps :
    (∃ t, step { runner with outQ := [6#64] } = .next t) ∧
    (∃ t, ({ runner with outQ := [6#64] } : State).inPush 5#64 = .done t .none) ∧
    ∃ t, ({ runner with outQ := [6#64] } : State).outPop = .done t (.word 6#64) := ⟨⟨_, rfl⟩, ⟨_, rfl⟩, ⟨_, rfl⟩⟩

theorem test_witness_WaitEndsOneStepAfterHostAnswers :
    waiter.Inv ∧ waiter.state = .waitingForInput ∧ waiter.inQ = [] ∧ waiter.inClosed = false :=
  ⟨test_waiter_inv, rfl, rfl, rfl⟩

/-- The rise, a host move during the wait, and the fall both ways. -/
theorem test_witness_WaitingSpansExactlyTheInput :
    (∃ t, step runner = .next t ∧ runner.waiting = false ∧ t.waiting = true) ∧
    (∃ t, systemMove (.host .inClose) waiter = .done t .none ∧ waiter.waiting = true) ∧
    (∃ t, systemMove .engine { waiter with inQ := [42#64] } = .done t .none ∧ t.state = .running) ∧
    ∃ t, systemMove .engine { waiter with inClosed := true } = .done t .none ∧ t.state = .faulted :=
  ⟨⟨_, rfl, rfl, rfl⟩, ⟨_, rfl, rfl⟩, ⟨_, rfl, rfl⟩, ⟨_, rfl, rfl⟩⟩

theorem test_witness_HostCannotReachEngineState :
    (∃ t, hostMove (.inPush 1#64) (some waiter) = .done t .none) ∧ (∃ t, hostMove .inClose (some waiter) = .done t .none) ∧
    (∃ t, hostMove .outPop (some { waiter with outQ := [6#64] }) = .done t (.word 6#64)) ∧
    (∃ t, hostMove .outDisconnect (some waiter) = .done t .none) ∧
    ∃ t, hostMove (.readReg 5) (some waiter) = .done t (.word 0#64) :=
  ⟨⟨_, rfl⟩, ⟨_, rfl⟩, ⟨_, rfl⟩, ⟨_, rfl⟩, ⟨_, rfl⟩⟩

/-- A state per clause; registers 5 and 6 are the two sides of the bound. -/
theorem test_witness_HostMoveTable :
    waiter.inClosed = false ∧ ({ waiter with inClosed := true } : State).inClosed = true ∧ waiter.outDisc = false ∧
    ({ waiter with outQ := [6#64] } : State).outQ = [6#64] ∧ waiter.outQ = [] ∧ waiter.outClosed = false ∧
    ({ waiter with outClosed := true } : State).outClosed = true ∧
    ({ waiter with outDisc := true } : State).outDisc = true ∧ (waiter.statusRegister 5).isSome = true ∧
    waiter.statusRegister 6 = none := by decide

theorem test_witness_StatusRegistersMirrorState :
    waiter.statusRegister 0 = some 5#64 ∧ waiter.statusRegister 6 = none := by decide

/-- An image of one word, with a seed; `OUT_CAP` at its least. -/
theorem test_witness_BuildLoadsImageAndClearsState :
    (words [99]).length ≤ maxAddr + 1 ∧ Params.wf { ovfPolicy := .fault, outCap := some 1 } = true := by decide

theorem test_witness_IllegalFirstWordFaultsAtFirstStep :
    (words [103, 5]).length ≤ maxAddr + 1 ∧ decodeHead ((words [103, 5]).getD 0 0#64) = .error .writeTarget := by decide

/-- An input left unread, and one word output. -/
theorem test_witness_BatchRunReturnsAnEndedDrainedEngine :
    ∃ s, batchRun 4 (words [104, 5, 99]) none Params.default [7#64] = some (s, [5#64]) := ⟨_, rfl⟩

/-- A write at the top address of a memory with a cell below it. -/
theorem test_witness_MemoryReadsLastWrite :
    Memory.wf [(3, 1#64)] = true ∧ maxAddr ≤ maxAddr ∧ (3 : Nat) ≠ maxAddr := by decide

/-- A write over the image, a write of 0, a write at the top address; address 1 reads the image. -/
theorem test_witness_CellsReadLastWriteElseImageElseZero :
    (words [3, 4]).length ≤ maxAddr + 1 ∧ (∀ w ∈ [(0, 0#64), (maxAddr, 9#64), (0, 5#64)], w.1 ≤ maxAddr) ∧
    Memory.read ([(0, 0#64), (maxAddr, 9#64), (0, 5#64)].foldl (fun m w => m.write w.1 w.2)
      (Memory.ofImage 0 (words [3, 4]))) 1 = 4#64 := by decide

theorem test_witness_CanonicalMemoriesThatReadAlikeAreEqual :
    Memory.wf [(3, 1#64)] = true ∧ Memory.wf (Memory.write [(3, 1#64), (4, 2#64)] 4 0#64) = true ∧
    ∀ a, a ≤ maxAddr → Memory.read [(3, 1#64)] a = Memory.read (Memory.write [(3, 1#64), (4, 2#64)] 4 0#64) a :=
  ⟨by decide, by decide, fun _ _ => rfl⟩

end Sys2Proof.Tests
end

section
/-! How a move changes the two queues, told by its event (spec 10_state.md R42, 42_io.md R181 and R184), and from it
that both queues are first-in first-out in every run. -/

namespace Sys2Proof.Machine

/-- The queues of `s` and `t` before and after the event `e`: a word enters at the tail, leaves at the head, and the
other queue is kept. -/
def Event.MovesQueues (e : Event) (s t : State) : Prop :=
  match e with
  | .pushed v => t.inQ = s.inQ ++ [v] ∧ t.outQ = s.outQ
  | .consumed v => s.inQ = v :: t.inQ ∧ t.outQ = s.outQ
  | .emitted v => t.inQ = s.inQ ∧ t.outQ = s.outQ ++ [v]
  | .popped v => t.inQ = s.inQ ∧ s.outQ = v :: t.outQ
  | .silent => t.inQ = s.inQ ∧ t.outQ = s.outQ

/-! ### The engine's step -/

theorem binary_keeps_queues {s t : State} {op : AluOp} {a b c : Operand} (h : s.binary op a b c = .next t) :
    t.inQ = s.inQ ∧ t.outQ = s.outQ := by
  obtain ⟨x, y, d, r, -, -, -, -, rfl⟩ | ⟨e, rfl, -⟩ := binary_cases h <;> simp

theorem jumpOn_keeps_queues {s t : State} {z : Bool} {a b : Operand} (h : s.jumpOn z a b = .next t) :
    t.inQ = s.inQ ∧ t.outQ = s.outQ := by
  obtain ⟨x, y, -, -, rfl⟩ | ⟨ea, rfl, -⟩ := jumpOn_cases h
  · split <;> simp
  · simp

/-- Output is the only instruction whose execution touches a queue; Input consumes in its second step. -/
theorem exec_keeps_queues {i : Instr} {s t : State} (hi : ∀ a, i ≠ .output a) (h : exec i s = .next t) :
    t.inQ = s.inQ ∧ t.outQ = s.outQ := by
  cases i with
  | add a b c => exact binary_keeps_queues (op := .add) h
  | multiply a b c => exact binary_keeps_queues (op := .mul) h
  | lessThan a b c => exact binary_keeps_queues (op := .lt) h
  | equals a b c => exact binary_keeps_queues (op := .eq) h
  | jumpIfTrue a b => exact jumpOn_keeps_queues (z := false) h
  | jumpIfFalse a b => exact jumpOn_keeps_queues (z := true) h
  | input a => obtain ⟨d, -, rfl⟩ | ⟨rfl, -⟩ | ⟨ea, rfl, -⟩ := execInput_cases h <;> simp
  | adjustRelativeBase a =>
    obtain ⟨x, r, -, -, rfl⟩ | ⟨rfl, -⟩ | ⟨ea, rfl, -⟩ := execAdjustRelativeBase_cases h <;> simp
  | halt => obtain rfl := Host.Outcome.next.inj h; simp
  | output a => exact absurd rfl (hi a)

theorem engineEvent_of_fetch_error {s : State} {e : Trap} (hs : s.state = .running) (hf : fetch s = .error e) :
    engineEvent s = .silent := by
  simp [engineEvent, hs, hf]

theorem engineEvent_of_not_output {s : State} {i : Instr} (hs : s.state = .running) (hf : fetch s = .ok i)
    (hi : ∀ a, i ≠ .output a) : engineEvent s = .silent := by
  cases i with
  | output a => exact absurd rfl (hi a)
  | _ => simp [engineEvent, hs, hf]

/-- Output's step: the event names the word exactly where one is pushed. -/
theorem output_moves_queues {s t : State} {a : Operand} (hs : s.state = .running) (hf : fetch s = .ok (.output a))
    (h : execOutput a s = .next t) : (engineEvent s).MovesQueues s t := by
  obtain ⟨x, hx, hd, -, rfl⟩ | ⟨x, hx, hd, rfl⟩ | ⟨ea, hx, rfl, -⟩ := execOutput_cases h
  · simp [engineEvent, hs, hf, hx, hd, Event.MovesQueues]
  · simp [engineEvent, hs, hf, hx, hd, Event.MovesQueues]
  · simp [engineEvent, hs, hf, hx, Event.MovesQueues]

/-- Input's second step: the event names the word exactly where one is consumed. -/
theorem completeInput_moves_queues {s t : State} (hs : s.state = .waitingForInput) (h : completeInput s = .next t) :
    (engineEvent s).MovesQueues s t := by
  obtain ⟨v, q, hq, rfl⟩ | ⟨hq, -, rfl⟩ := completeInput_cases h <;> simp [engineEvent, hs, hq, Event.MovesQueues]

/-- An engine step changes the queues as its event says. -/
theorem step_moves_queues {s t : State} (h : step s = .next t) : (engineEvent s).MovesQueues s t := by
  obtain ⟨hs, e, hf, rfl⟩ | ⟨hs, i, hf, hx⟩ | ⟨hs, hc⟩ := step_cases h
  · rw [engineEvent_of_fetch_error hs hf]
    exact ⟨rfl, rfl⟩
  · by_cases hi : ∀ a, i ≠ .output a
    · rw [engineEvent_of_not_output hs hf hi]
      exact exec_keeps_queues hi hx
    · obtain ⟨a, rfl⟩ := by simpa using hi
      exact output_moves_queues hs hf hx
  · exact completeInput_moves_queues hs hc

/-! ### The host's moves -/

theorem inPush_cases {s t : State} {v : Word} {r : Reply} (h : s.inPush v = .done t r) :
    s.inClosed = false ∧ t = { s with inQ := s.inQ ++ [v] } ∧ r = .none := by
  unfold State.inPush at h
  split at h
  · cases h
  · cases h; simp_all

theorem inClose_cases {s t : State} {r : Reply} (h : s.inClose = .done t r) :
    s.inClosed = false ∧ t = { s with inClosed := true } ∧ r = .none := by
  unfold State.inClose at h
  split at h
  · cases h
  · cases h; simp_all

theorem outPop_cases {s t : State} {r : Reply} (h : s.outPop = .done t r) :
    s.outDisc = false ∧
    ((∃ v q, s.outQ = v :: q ∧ t = { s with outQ := q } ∧ r = .word v) ∨
      (s.outQ = [] ∧ s.outClosed = true ∧ t = s ∧ r = .endOfStream)) := by
  unfold State.outPop at h
  split at h
  · cases h
  · split at h
    · cases h; simp_all
    · split at h
      · cases h; simp_all
      · cases h

theorem outDisconnect_cases {s t : State} {r : Reply} (h : s.outDisconnect = .done t r) :
    s.outDisc = false ∧ t = { s with outDisc := true } ∧ r = .none := by
  unfold State.outDisconnect at h
  split at h
  · cases h
  · cases h; simp_all

theorem readReg_cases {s t : State} {n : Nat} {r : Reply} (h : s.readReg n = .done t r) :
    t = s ∧ ∃ v, s.statusRegister n = some v ∧ r = .word v := by
  unfold State.readReg at h
  split at h
  · cases h; simp_all
  · cases h

/-- A move of either agent changes the queues as its event says. -/
theorem systemMove_moves_queues {m : Move} {s t : State} {r : Reply} (h : systemMove m s = .done t r) :
    (moveEvent m s r).MovesQueues s t := by
  cases m with
  | engine => exact step_moves_queues (step_of_engineMove h).1
  | host m =>
    cases m with
    | build image seed params => cases h
    | inPush v => obtain ⟨-, rfl, -⟩ := inPush_cases h; exact ⟨rfl, rfl⟩
    | inClose => obtain ⟨-, rfl, -⟩ := inClose_cases h; exact ⟨rfl, rfl⟩
    | outPop =>
      obtain ⟨-, ⟨v, q, hq, rfl, rfl⟩ | ⟨-, -, rfl, rfl⟩⟩ := outPop_cases h
      · exact ⟨rfl, hq⟩
      · exact ⟨rfl, rfl⟩
    | outDisconnect => obtain ⟨-, rfl, -⟩ := outDisconnect_cases h; exact ⟨rfl, rfl⟩
    | readReg n => obtain ⟨rfl, -⟩ := readReg_cases h; exact ⟨rfl, rfl⟩

/-! ### Runs -/

/-- What was in a queue and entered it is what left it and is still there, in order (R42). -/
def QueuesConserved (s : State) (es : List Event) (t : State) : Prop :=
  s.inQ ++ pushedWords es = consumedWords es ++ t.inQ ∧ s.outQ ++ emittedWords es = poppedWords es ++ t.outQ

theorem QueuesConserved.nil (s : State) : QueuesConserved s [] s := by
  simp [QueuesConserved, pushedWords, consumedWords, emittedWords, poppedWords]

theorem QueuesConserved.of_event {e : Event} {s t : State} (h : e.MovesQueues s t) : QueuesConserved s [e] t := by
  cases e <;> obtain ⟨hin, hout⟩ := h <;>
    simp [QueuesConserved, pushedWords, consumedWords, emittedWords, poppedWords, hin, hout]

theorem QueuesConserved.append {s t u : State} {es fs : List Event} (h : QueuesConserved s es t)
    (h' : QueuesConserved t fs u) : QueuesConserved s (es ++ fs) u := by
  obtain ⟨hin, hout⟩ := h
  obtain ⟨hin', hout'⟩ := h'
  constructor
  · calc s.inQ ++ pushedWords (es ++ fs) = (s.inQ ++ pushedWords es) ++ pushedWords fs := by simp
      _ = consumedWords es ++ (t.inQ ++ pushedWords fs) := by rw [hin, List.append_assoc]
      _ = consumedWords (es ++ fs) ++ u.inQ := by simp [hin']
  · calc s.outQ ++ emittedWords (es ++ fs) = (s.outQ ++ emittedWords es) ++ emittedWords fs := by simp
      _ = poppedWords es ++ (t.outQ ++ emittedWords fs) := by rw [hout, List.append_assoc]
      _ = poppedWords (es ++ fs) ++ u.outQ := by simp [hout']

theorem Run.queuesConserved {s t : State} {es : List Event} (h : Run s es t) : QueuesConserved s es t := by
  induction h with
  | nil s => exact .nil s
  | cons hm _ ih => exact (QueuesConserved.of_event (systemMove_moves_queues hm)).append ih

/-- Settles O47, by induction on the run: each move changes the queues as its event says, and conservation of the queues
composes along a run. -/
theorem queuesAreFifoInEveryRun : Obligations.QueuesAreFifoInEveryRun :=
  fun _ _ _ h => h.queuesConserved

end Sys2Proof.Machine
end

section
/-! The status registers (spec 10_state.md R43). -/

namespace Sys2Proof.Machine

theorem RunState.code_lt (r : RunState) : r.code < 4 := by cases r <;> decide

theorem FaultCause.code_lt (c : FaultCause) : c.code < 16 := by cases c <;> decide

/-- The fields of STATUS do not overlap: each is read back from the packed number, which ends below bit 6. -/
theorem statusFields_unpack : ∀ c < 4, ∀ b2 b3 b4 b5 : Bool,
    let n := c + 4 * b2.toNat + 8 * b3.toNat + 16 * b4.toNat + 32 * b5.toNat
    n < 2 ^ 6 ∧ n % 4 = c ∧ n.testBit 2 = b2 ∧ n.testBit 3 = b3 ∧ n.testBit 4 = b4 ∧ n.testBit 5 = b5 := by decide

theorem toNat_ofNat_of_lt {n k : Nat} (h : n < 2 ^ k) (hk : k ≤ 64) : (BitVec.ofNat 64 n).toNat = n :=
  Nat.mod_eq_of_lt (h.trans_le (Nat.pow_le_pow_right (by decide) hk))

/-- A word below `2 ^ n` has no bit from `n` on. -/
theorem getLsbD_eq_false_of_toNat_lt {w : Word} {n k : Nat} (h : w.toNat < 2 ^ n) (hk : n ≤ k) :
    w.getLsbD k = false :=
  Nat.testBit_lt_two_pow (h.trans_le (Nat.pow_le_pow_right (by decide) hk))

/-- STATUS, field by field. -/
theorem statusWord_fields (s : State) :
    s.statusWord.toNat % 4 = s.state.code ∧ s.statusWord.getLsbD 2 = s.waiting ∧
    s.statusWord.getLsbD 3 = s.inClosed ∧ s.statusWord.getLsbD 4 = s.outClosed ∧
    s.statusWord.getLsbD 5 = s.outDisc ∧ ∀ k, 6 ≤ k → s.statusWord.getLsbD k = false := by
  obtain ⟨hlt, hcode, h2, h3, h4, h5⟩ :=
    statusFields_unpack s.state.code s.state.code_lt s.waiting s.inClosed s.outClosed s.outDisc
  have hn := toNat_ofNat_of_lt hlt (by decide)
  rw [← hn] at hlt hcode h2 h3 h4 h5
  exact ⟨hcode, h2, h3, h4, h5, fun _ hk => getLsbD_eq_false_of_toNat_lt hlt hk⟩

/-- FAULT_CAUSE holds the code in bits 3 to 0. -/
theorem faultCauseWord_fields (c : FaultCause) :
    (BitVec.ofNat 64 c.code).toNat = c.code ∧ ∀ k, 4 ≤ k → (BitVec.ofNat 64 c.code).getLsbD k = false := by
  have hn := toNat_ofNat_of_lt (n := c.code) (k := 4) c.code_lt (by decide)
  exact ⟨hn, fun _ hk => getLsbD_eq_false_of_toNat_lt (hn.symm ▸ c.code_lt) hk⟩

/-- FAULT_ADDR_HI and FAULT_ADDR_LO together hold all 128 bits. -/
theorem toNat_eq_hi_lo (x : BitVec 128) :
    x.toNat = ((x >>> 64).setWidth 64).toNat * 18446744073709551616 + (x.setWidth 64).toNat := by
  have := x.isLt
  simp only [BitVec.toNat_setWidth, BitVec.toNat_ushiftRight, Nat.shiftRight_eq_div_pow]
  omega

/-- Register numbers end at 5. -/
theorem statusRegister_eq_none (s : State) {n : Nat} (h : 5 < n) : s.statusRegister n = none := by
  obtain ⟨k, rfl⟩ := Nat.exists_eq_add_of_le' h
  rfl

theorem statusRegister_buildEngine (image : List Word) (seed : Option Word) (params : Params) {n : Nat} (h : n ≤ 5) :
    (buildEngine image seed params).statusRegister n = some 0#64 := by
  obtain rfl | h5 := Nat.eq_or_lt_of_le h
  · show some (((0#128) >>> 64).setWidth 64) = some 0#64
    decide
  · interval_cases n <;> rfl

/-- Settles O53, register by register. -/
theorem statusRegistersMirrorState : Obligations.StatusRegistersMirrorState := by
  refine ⟨fun _ image seed params hn => statusRegister_buildEngine image seed params hn, fun s => ⟨?_, ?_, rfl, rfl, ?_,
    fun _ hn => statusRegister_eq_none s hn, rfl, rfl, rfl, rfl⟩⟩
  · exact ⟨s.statusWord, rfl, statusWord_fields s⟩
  · exact ⟨BitVec.ofNat 64 s.faultCause.code, rfl, faultCauseWord_fields s.faultCause⟩
  · exact ⟨s.faultAddr.setWidth 64, (s.faultAddr >>> 64).setWidth 64, rfl, rfl, toNat_eq_hi_lo s.faultAddr⟩

end Sys2Proof.Machine
end

section
/-! A memory write is read back and changes no other cell (spec 20_memory.md R73). -/

namespace Sys2Proof.Machine

/-- Settles O58. Only the read-back needs the canonical form: a write of 0 drops the one pair of its address, which
leaves 0 there because the addresses of the pairs rise strictly. -/
theorem memoryReadsLastWrite : Obligations.MemoryReadsLastWrite := by
  intro m a v hwf _
  obtain ⟨hsorted, _⟩ := (Memory.wf_iff m).1 hwf
  exact ⟨Memory.read_write_self hsorted a v, fun b hb => Memory.read_write_ne m a b v hb⟩

end Sys2Proof.Machine
end

section
/-! The decoder's faults (spec 30_encoding.md R109 to R118): what `decodeHead` answers for each illegal or reserved
opcode word, one lemma per check of R115, and the fetch at the two ends of the address space. -/

namespace Sys2Proof

/-! ### The opcode map -/

@[simp] theorem Opcode.ofCode_code (op : Opcode) : Opcode.ofCode op.code = some op := by cases op <;> rfl

theorem Opcode.ofCode_eq_none {n : Nat} (h : n ∉ [1, 2, 3, 4, 5, 6, 7, 8, 9, 99]) : Opcode.ofCode n = none := by
  unfold Opcode.ofCode
  split <;> simp_all

theorem Opcode.writePosition_bounds {op : Opcode} {k : Nat} (h : op.writePosition = some k) : 1 ≤ k ∧ k ≤ 3 := by
  cases op <;> simp [Opcode.writePosition] at h <;> omega

/-! ### The mode digits -/

theorem decodeMode_of_positionFault {n k w : Nat} {f : HeadFault} (h : positionFault n k w = some f) :
    decodeMode n k (digit (k + 1) w) = .error f := by
  unfold positionFault at h
  generalize digit (k + 1) w = d at h ⊢
  by_cases hk : k ≤ n
  · obtain ⟨hd, rfl⟩ : 2 < d ∧ HeadFault.invalidMode = f := by simpa [hk] using h
    obtain ⟨e, rfl⟩ := Nat.exists_eq_add_of_le' hd
    exact if_pos hk
  · obtain ⟨hd, rfl⟩ : d ≠ 0 ∧ HeadFault.reservedDigit = f := by simpa [hk] using h
    obtain ⟨e, rfl⟩ := Nat.exists_eq_add_one_of_ne_zero hd
    exact if_neg hk

/-- A position without a fault decodes to the mode of its digit. -/
theorem decodeMode_of_no_positionFault {n k w : Nat} (h : positionFault n k w = none) :
    ∃ m, decodeMode n k (digit (k + 1) w) = .ok m ∧ m.digit = digit (k + 1) w := by
  unfold positionFault at h
  generalize digit (k + 1) w = d at h ⊢
  by_cases hk : k ≤ n
  · have hd : d ≤ 2 := by simpa [hk] using h
    interval_cases d
    · exact ⟨.absolute, if_pos hk, rfl⟩
    · exact ⟨.immediate, if_pos hk, rfl⟩
    · exact ⟨.relative, if_pos hk, rfl⟩
  · obtain rfl : d = 0 := by simpa [hk] using h
    exact ⟨.absolute, if_neg hk, rfl⟩

theorem Mode.eq_immediate_of_digit {m : Mode} (h : m.digit = 1) : m = .immediate := by cases m <;> simp_all [Mode.digit]

theorem Head.writeOk_eq_false {h : Head} {k : Nat} (hk : h.op.writePosition = some k) (hm : h.modeAt k = .immediate) :
    h.writeOk = false := by
  simp [Head.writeOk, hk, hm]

/-! ### The opcode word, in the order of R115 -/

theorem decodeHead_of_neg {w : Word} (h : w.toInt < 0) : decodeHead w = .error .invalidOpcode := by
  rw [decodeHead, if_pos h]

theorem decodeHead_of_illegal_code {w : Word} (h0 : 0 ≤ w.toInt)
    (h : w.toNat % 100 ∉ [1, 2, 3, 4, 5, 6, 7, 8, 9, 99]) : decodeHead w = .error .invalidOpcode := by
  rw [decodeHead, if_neg h0.not_gt, Opcode.ofCode_eq_none h]

section
variable {w : Word} {op : Opcode} (h0 : 0 ≤ w.toInt) (hop : w.toNat % 100 = op.code)
include h0 hop

theorem decodeHead_of_high_digit (h : 100000 ≤ w.toNat) : decodeHead w = .error .reservedDigit := by
  simp [decodeHead, h0.not_gt, hop, h]

variable (hlt : w.toNat < 100000)
include hlt

/-- The first position with a fault decides (R109, R114). -/
theorem decodeHead_of_positionFault {k : Nat} {f : HeadFault} (h1 : 1 ≤ k) (h3 : k ≤ 3)
    (hbefore : ∀ j, 1 ≤ j → j < k → positionFault op.arity j w.toNat = none)
    (hk : positionFault op.arity k w.toNat = some f) : decodeHead w = .error f := by
  have hf := decodeMode_of_positionFault hk
  have hm := fun j hj hjk => decodeMode_of_no_positionFault (hbefore j hj hjk)
  obtain rfl | rfl | rfl : k = 1 ∨ k = 2 ∨ k = 3 := by omega
  · simp [decodeHead, h0.not_gt, hop, hlt.not_ge, hf]
  · obtain ⟨m1, hm1, -⟩ := hm 1 (by omega) (by omega)
    simp [decodeHead, h0.not_gt, hop, hlt.not_ge, hm1, hf]
  · obtain ⟨m1, hm1, -⟩ := hm 1 (by omega) (by omega)
    obtain ⟨m2, hm2, -⟩ := hm 2 (by omega) (by omega)
    simp [decodeHead, h0.not_gt, hop, hlt.not_ge, hm1, hm2, hf]

/-- Without a position fault the modes are those of the digits, and only the write position is left to check. -/
theorem decodeHead_of_no_positionFault (hnone : ∀ j, 1 ≤ j → j ≤ 3 → positionFault op.arity j w.toNat = none) :
    ∃ h : Head, h.op = op ∧ (∀ k, 1 ≤ k → k ≤ 3 → (h.modeAt k).digit = digit (k + 1) w.toNat) ∧
      decodeHead w = if h.writeOk then .ok h else .error .writeTarget := by
  have hm := fun j hj hj3 => decodeMode_of_no_positionFault (hnone j hj hj3)
  obtain ⟨m1, hm1, hd1⟩ := hm 1 (by omega) (by omega)
  obtain ⟨m2, hm2, hd2⟩ := hm 2 (by omega) (by omega)
  obtain ⟨m3, hm3, hd3⟩ := hm 3 (by omega) (by omega)
  refine ⟨⟨op, m1, m2, m3⟩, rfl, fun k h1 h3 => ?_, ?_⟩
  · obtain rfl | rfl | rfl : k = 1 ∨ k = 2 ∨ k = 3 := by omega
    · exact hd1
    · exact hd2
    · exact hd3
  · simp [decodeHead, h0.not_gt, hop, hlt.not_ge, hm1, hm2, hm3]

theorem decodeHead_of_immediate_target {k : Nat}
    (hnone : ∀ j, 1 ≤ j → j ≤ 3 → positionFault op.arity j w.toNat = none)
    (hk : op.writePosition = some k) (hd : digit (k + 1) w.toNat = 1) : decodeHead w = .error .writeTarget := by
  obtain ⟨h, rfl, hmode, hw⟩ := decodeHead_of_no_positionFault h0 hop hlt hnone
  obtain ⟨h1, h3⟩ := Opcode.writePosition_bounds hk
  have him := Mode.eq_immediate_of_digit ((hmode k h1 h3).trans hd)
  simpa [Head.writeOk_eq_false hk him] using hw

end

namespace Machine

/-! ### The fetch -/

theorem fetch_of_neg {s : State} (h : s.pc.toInt < 0) : fetch s = .error (.address s.pc.toInt) := by
  have hr : ¬inRange s.pc.toInt = true := by rw [inRange_toInt]; omega
  rw [fetch, if_neg hr]

theorem fetch_of_head_error {s : State} {f : HeadFault} (h0 : 0 ≤ s.pc.toInt)
    (h : decodeHead (s.mem.read s.pc.toNat) = .error f) : fetch s = .error (.head f) := by
  rw [fetch, if_pos ((inRange_toInt _).2 h0), h]

theorem fetch_of_past_top {s : State} {h : Head} (h0 : 0 ≤ s.pc.toInt)
    (hd : decodeHead (s.mem.read s.pc.toNat) = .ok h) (htop : (maxAddr : Int) < s.pc.toInt + h.op.length) :
    fetch s = .error (.address (s.pc.toInt + h.op.length)) := by
  simp [fetch, (inRange_toInt _).2 h0, hd, htop.not_ge]

/-- A running engine raises the fault of the opcode word at `pc`. -/
theorem step_of_head_error {s : State} {f : HeadFault} (hs : s.state = .running) (h0 : 0 ≤ s.pc.toInt)
    (h : decodeHead (s.mem.read s.pc.toNat) = .error f) : step s = .next (s.raise (.head f)) :=
  step_fetch_error hs (fetch_of_head_error h0 h)

/-- Settles O6: each clause is the check of R115 that its word meets first. -/
theorem illegalOpcodeWordsFault : Obligations.IllegalOpcodeWordsFault := by
  refine ⟨fun s => ⟨rfl, rfl, rfl, rfl⟩, fun s hs hpc => ⟨fun hneg => ?_, fun h0 hcode => ?_,
    fun op h0 hop => ⟨fun hhigh => ?_, fun hlt => ⟨fun k f h1 h3 hbefore hk => ?_, fun k hnone hk hd => ?_⟩⟩⟩⟩ <;>
    apply step_of_head_error hs hpc
  · exact decodeHead_of_neg hneg
  · exact decodeHead_of_illegal_code h0 hcode
  · exact decodeHead_of_high_digit h0 hop hhigh
  · exact decodeHead_of_positionFault h0 hop hlt h1 h3 hbefore hk
  · exact decodeHead_of_immediate_target h0 hop hlt hnone hk hd

theorem State.wordAtPc_of_neg {s : State} (h : s.pc.toInt < 0) : s.wordAtPc = 0#64 := by
  have hr : ¬inRange s.pc.toInt = true := by rw [inRange_toInt]; omega
  rw [State.wordAtPc, if_neg hr]

theorem State.wordAtPc_of_nonneg {s : State} (h : 0 ≤ s.pc.toInt) : s.wordAtPc = s.mem.read s.pc.toNat := by
  rw [State.wordAtPc, if_pos ((inRange_toInt _).2 h)]

/-- `fault_addr` is wide enough for `pc` and for every successor: it holds the exact address (R39, R116). -/
theorem toInt_faultAddr (w : Word) {n : Nat} (hn : n ≤ 4) :
    (BitVec.ofInt 128 (w.toInt + n)).toInt = w.toInt + n := by
  have := toInt_bounds w
  rw [BitVec.toInt_ofInt]
  exact Int.bmod_eq_of_le (by omega) (by omega)

/-- Settles O7: the two checks of R116, and the successor check read from a fetched instruction. -/
theorem fetchStaysInAddressSpace : Obligations.FetchStaysInAddressSpace := by
  refine fun s hs => ⟨fun hneg => ?_, fun h h0 hd htop => ?_, fun i hi => ?_⟩
  · have haddr : (BitVec.ofInt 128 s.pc.toInt).toInt = s.pc.toInt := by simpa using toInt_faultAddr s.pc (Nat.zero_le 4)
    exact ⟨_, step_fetch_error hs (fetch_of_neg hneg), rfl, rfl, rfl, State.wordAtPc_of_neg hneg, haddr⟩
  · have hlen : s.pc.toInt + h.op.length = s.pc.toInt + h.op.arity + 1 := by simp [Opcode.length, add_assoc]
    have haddr := toInt_faultAddr s.pc (Laws.EncodedLength.opcode_length_bounds h.op).2
    exact ⟨_, step_fetch_error hs (fetch_of_past_top h0 hd (hlen ▸ htop)), rfl, rfl, rfl, State.wordAtPc_of_nonneg h0,
      haddr.trans hlen⟩
  · obtain ⟨h, hr, -, htop, rfl⟩ := fetch_ok hi
    exact ⟨(inRange_toInt _).1 hr, by simpa [Instr.length] using htop⟩

end Machine

end Sys2Proof
end

section
/-! The pseudo-instructions (spec 30_encoding.md R123). -/

namespace Sys2Proof.Machine

/-- Adding 0 gives the word back, under either policy: the exact sum always fits. -/
theorem aluUnder_add_zero (p : OvfPolicy) (x : Word) : aluUnder p .add x 0#64 = .ok x := by
  have hfits : fits64 x.toInt = true := (fits64_iff _).2 (toInt_bounds x)
  simp [aluUnder_eq, alu, add64, wrap64, hfits]

theorem aluUnder_mul_zero_zero (p : OvfPolicy) : aluUnder p .mul 0#64 0#64 = .ok 0#64 := by cases p <;> rfl

theorem exec_pseudoNop (s : State) : exec pseudoNop s = .next (s.advance 3) :=
  jumpOn_next (z := true) (a := .imm 1#64) (b := .imm 0#64) rfl rfl

theorem exec_pseudoJmp {s : State} {o : Operand} {y : Resolved} (ho : resolve s.rb o = .ok y) :
    exec (pseudoJmp o) s = .next (s.jump (s.value y)) :=
  jumpOn_next (z := false) (a := .imm 1#64) rfl ho

theorem exec_pseudoMov {s : State} {o p : Operand} {x : Resolved} {d : Nat} (ho : resolve s.rb o = .ok x)
    (hp : resolveTarget s.rb p = .ok d) : exec (pseudoMov o p) s = .next ((s.store d (s.value x)).advance 4) :=
  binary_next (y := .imm 0#64) ho rfl hp (aluUnder_add_zero _ _)

theorem exec_pseudoClr {s : State} {p : Operand} {d : Nat} (hp : resolveTarget s.rb p = .ok d) :
    exec (pseudoClr p) s = .next ((s.store d 0#64).advance 4) :=
  binary_next (x := .imm 0#64) (y := .imm 0#64) rfl rfl hp (aluUnder_mul_zero_zero _)

/-- The words of `Clr`: only its opcode word depends on the mode of the target. -/
theorem encode_pseudoClr (d : Operand) :
    encode (pseudoClr d) = [encodeHead ⟨.multiply, .immediate, .immediate, d.mode⟩, 0#64, 0#64, d.raw] := rfl

theorem encode_pseudoClr_abs (v : Word) : encode (pseudoClr (.abs v)) = [1102#64, 0#64, 0#64, v] := by
  have hw : encodeHead ⟨.multiply, .immediate, .immediate, .absolute⟩ = 1102#64 := by decide
  exact (encode_pseudoClr (.abs v)).trans (congrArg (· :: _) hw)

theorem encode_pseudoClr_rel (v : Word) : encode (pseudoClr (.rel v)) = [21102#64, 0#64, 0#64, v] := by
  have hw : encodeHead ⟨.multiply, .immediate, .immediate, .relative⟩ = 21102#64 := by decide
  exact (encode_pseudoClr (.rel v)).trans (congrArg (· :: _) hw)

/-- Settles O28: each pseudo-instruction is one instruction, run by the lemma of its shape. -/
theorem pseudoInstructionsExpand : Obligations.PseudoInstructionsExpand :=
  ⟨exec_pseudoNop, fun _ _ _ ho => exec_pseudoJmp ho, fun _ _ _ _ _ ho hp => ⟨exec_pseudoMov ho hp, exec_pseudoClr hp⟩,
    fun _ _ => ⟨rfl, rfl, rfl, rfl⟩, fun v => ⟨encode_pseudoClr_abs v, encode_pseudoClr_rel v⟩⟩

end Sys2Proof.Machine
end

section
/-! The state machine of the engine (spec 40_execution_cycle.md R141, R146): where the engine has a step, and which
`state` that step leads to. -/

namespace Sys2Proof.Machine

/-! ### What a fetched instruction and its operands are known to satisfy -/

theorem writeOk_of_decodeHead {w : Word} {h : Head} (hd : decodeHead w = .ok h) : h.writeOk = true := by
  unfold decodeHead at hd
  repeat' split at hd
  all_goals cases hd
  assumption

theorem Head.instr_wf {h : Head} (hw : h.writeOk = true) (raw : Nat → Word) : (h.instr raw).wf = true := by
  obtain ⟨op, m1, m2, m3⟩ := h
  cases op with
  | add | multiply | lessThan | equals =>
    cases m3 <;> simp_all [Head.writeOk, Head.instr, Head.modeAt, Opcode.writePosition, Instr.wf, Operand.writable]
  | input =>
    cases m1 <;> simp_all [Head.writeOk, Head.instr, Head.modeAt, Opcode.writePosition, Instr.wf, Operand.writable]
  | output | jumpIfTrue | jumpIfFalse | adjustRelativeBase | halt => rfl

/-- The decoder lets no immediate write target through (R110). -/
theorem fetch_wf {s : State} {i : Instr} (h : fetch s = .ok i) : i.wf = true := by
  obtain ⟨hd, -, hdec, -, rfl⟩ := fetch_ok h
  exact Head.instr_wf (writeOk_of_decodeHead hdec) _

theorem resolve_of_resolveTarget {rb : Word} {o : Operand} {d : Nat} (h : resolveTarget rb o = .ok d) :
    resolve rb o = .ok (.mem d) := by
  obtain ⟨ea, hea, hr, rfl⟩ := resolveTarget_cases h
  simp [resolve, hea, hr]

/-- Every operand of the list resolves against `rb`. -/
def AllResolve (rb : Word) (os : List Operand) : Prop := ∀ o ∈ os, ∃ x, resolve rb o = .ok x

theorem allResolve_of_no_addressFault {rb : Word} {os : List Operand} (h : firstAddressFault rb os = none) :
    AllResolve rb os := by
  induction os with
  | nil => simp [AllResolve]
  | cons o os ih =>
    simp only [firstAddressFault] at h
    cases hea : effectiveAddress rb o with
    | none =>
      have ho : resolve rb o = .ok (.imm o.raw) := by simp [resolve, hea]
      exact List.forall_mem_cons.2 ⟨⟨_, ho⟩, ih (by simpa [hea] using h)⟩
    | some ea =>
      have hr : inRange ea = true := by by_contra hr; simp [hea, hr] at h
      have ho : resolve rb o = .ok (.mem ea.toNat) := by simp [resolve, hea, hr]
      exact List.forall_mem_cons.2 ⟨⟨_, ho⟩, ih (by simpa [hea, hr] using h)⟩

theorem not_allResolve_of_addressFault {rb : Word} {os : List Operand} {e : Trap}
    (h : firstAddressFault rb os = some e) : ¬ AllResolve rb os := by
  intro hall
  induction os with
  | nil => cases h
  | cons o os ih =>
    obtain ⟨⟨x, hx⟩, hos⟩ := List.forall_mem_cons.1 hall
    rcases resolve_cases hx with ⟨hea, -⟩ | ⟨ea, hea, hr, -⟩
    · exact ih (by simpa [firstAddressFault, hea] using h) hos
    · exact ih (by simpa [firstAddressFault, hea, hr] using h) hos

/-! ### Where the engine has a step -/

theorem State.outFull_iff (s : State) : s.outFull = true ↔ ∃ n, s.params.outCap = some n ∧ n ≤ s.outQ.length := by
  unfold State.outFull
  cases s.params.outCap <;> simp

/-- The output has room: it is unbounded, or shorter than `OUT_CAP`. -/
theorem State.outFull_eq_false {s : State} (h : ∀ n, s.params.outCap = some n → s.outQ.length < n) :
    s.outFull = false := by
  rw [Bool.eq_false_iff]
  intro hf
  obtain ⟨n, hn, hle⟩ := s.outFull_iff.1 hf
  exact absurd (h n hn) (by omega)

theorem commit_next (s : State) (r : Except Trap State) : ∃ t, s.commit r = .next t := by
  cases r <;> exact ⟨_, rfl⟩

/-- Output is the only instruction that can block. -/
theorem exec_next_of_not_output {i : Instr} (s : State) (hi : ∀ a, i ≠ .output a) : ∃ t, exec i s = .next t := by
  cases i with
  | output a => exact absurd rfl (hi a)
  | halt => exact ⟨s.halt, rfl⟩
  | _ => exact commit_next s _

theorem execOutput_of_room {s : State} {a : Operand} {x : Resolved} (hx : resolve s.rb a = .ok x)
    (hd : s.outDisc = false) (hf : s.outFull = false) :
    execOutput a s = .next ((s.pushOut (s.value x)).advance 2) := by
  simp [execOutput, hx, hd, hf]

theorem execOutput_of_full {s : State} {a : Operand} {x : Resolved} (hx : resolve s.rb a = .ok x)
    (hd : s.outDisc = false) (hf : s.outFull = true) : execOutput a s = .fault .outputBlocked := by
  simp [execOutput, hx, hd, hf]

theorem execOutput_next_or_blocked (a : Operand) (s : State) :
    (∃ t, execOutput a s = .next t) ∨
      ((∃ x, resolve s.rb a = .ok x) ∧ s.outDisc = false ∧ s.outFull = true) := by
  cases hx : resolve s.rb a with
  | error e => exact .inl ⟨s.raise e, by simp [execOutput, hx]⟩
  | ok x =>
    cases hd : s.outDisc with
    | true => exact .inl ⟨s.raise .outputDisconnected, by simp [execOutput, hx, hd]⟩
    | false =>
      cases hf : s.outFull with
      | false => exact .inl ⟨_, execOutput_of_room hx hd hf⟩
      | true => exact .inr ⟨⟨x, rfl⟩, rfl, rfl⟩

/-- The first situation of R146: the wait on an empty queue whose host may still push. -/
def State.InputBlocked (s : State) : Prop := s.state = .waitingForInput ∧ s.inQ = [] ∧ s.inClosed = false

/-- The second situation of R146: an Output that resolves, facing a full queue that is still connected. -/
def State.OutputBlocked (s : State) : Prop :=
  s.state = .running ∧ s.outDisc = false ∧ s.outFull = true ∧
    ∃ a x, fetch s = .ok (.output a) ∧ resolve s.rb a = .ok x

theorem step_of_inputBlocked {s : State} (h : s.InputBlocked) : step s = .fault .inputBlocked := by
  obtain ⟨hs, hq, hc⟩ := h
  simp [step_waiting hs, completeInput, hq, hc]

theorem step_of_outputBlocked {s : State} (h : s.OutputBlocked) : step s = .fault .outputBlocked := by
  obtain ⟨hs, hd, hf, a, x, hfetch, hx⟩ := h
  exact (step_exec hs hfetch).trans (execOutput_of_full hx hd hf)

theorem step_of_ended {s : State} (h : s.state = .halted ∨ s.state = .faulted) (t : State) : step s ≠ .next t := by
  rcases h with h | h <;> simp [step, h]

/-- A live engine has a step unless one of the two situations blocks it. -/
theorem step_next_or_blocked {s : State} (hlive : s.state = .running ∨ s.state = .waitingForInput) :
    (∃ t, step s = .next t) ∨ s.InputBlocked ∨ s.OutputBlocked := by
  rcases hlive with hs | hs
  · cases hf : fetch s with
    | error e => exact .inl ⟨_, step_fetch_error hs hf⟩
    | ok i =>
      rw [step_exec hs hf]
      by_cases hi : ∀ a, i ≠ .output a
      · exact .inl (exec_next_of_not_output s hi)
      · obtain ⟨a, rfl⟩ := by simpa using hi
        rcases execOutput_next_or_blocked a s with hnext | ⟨⟨x, hx⟩, hd, hfull⟩
        · exact .inl hnext
        · exact .inr (.inr ⟨hs, hd, hfull, a, x, hf, hx⟩)
  · rw [step_waiting hs]
    cases hq : s.inQ with
    | cons v q => exact .inl ⟨_, by rw [completeInput, hq]⟩
    | nil =>
      cases hc : s.inClosed with
      | true => exact .inl ⟨s.raise .inputDisconnected, by simp [completeInput, hq, hc]⟩
      | false => exact .inr (.inl ⟨hs, hq, hc⟩)

/-- Settles O37: a blocked situation and a next state exclude each other, and within `OUT_CAP` a full queue holds
exactly `OUT_CAP` words. -/
theorem liveEngineBlocksInExactlyTwoSituations : Obligations.LiveEngineBlocksInExactlyTwoSituations := by
  intro s hlive hcap
  refine ⟨fun r hr => ?_, fun hno => ?_, fun hblocked ⟨t, ht⟩ => ?_⟩
  · rcases step_next_or_blocked hlive with ⟨t, ht⟩ | hin | hout
    · simp [ht] at hr
    · simp [step_of_inputBlocked hin] at hr
    · simp [step_of_outputBlocked hout] at hr
  · rcases step_next_or_blocked hlive with hnext | hin | ⟨hs, hd, hfull, hfetch⟩
    · exact absurd hnext hno
    · exact .inl hin
    · obtain ⟨n, hn, hle⟩ := s.outFull_iff.1 hfull
      have hlen : n = s.outQ.length := le_antisymm hle (hcap n hn)
      exact .inr ⟨hs, hd, hlen ▸ hn, hfetch⟩
  · rcases hblocked with hin | ⟨hs, hd, hn, hfetch⟩
    · simp [step_of_inputBlocked hin] at ht
    · have hout : s.OutputBlocked := ⟨hs, hd, s.outFull_iff.2 ⟨_, hn, le_rfl⟩, hfetch⟩
      simp [step_of_outputBlocked hout] at ht

/-! ### Which state a step leads to -/

/-- The `state` an instruction leads to when it neither faults nor blocks (R141). -/
def stateAfter : Instr → RunState
  | .input _ => .waitingForInput
  | .halt => .halted
  | .add _ _ _ | .multiply _ _ _ | .lessThan _ _ _ | .equals _ _ _ | .output _ | .jumpIfTrue _ _ | .jumpIfFalse _ _
  | .adjustRelativeBase _ => .running

theorem stateAfter_eq_running {i : Instr} (hh : i ≠ .halt) (hi : ∀ a, i ≠ .input a) : stateAfter i = .running := by
  cases i with
  | halt => exact absurd rfl hh
  | input a => exact absurd rfl (hi a)
  | _ => rfl

theorem binary_state {s t : State} {op : AluOp} {a b c : Operand} (hs : s.state = .running)
    (h : s.binary op a b c = .next t) : t.state = .faulted ∨ (t.state = .running ∧ AllResolve s.rb [a, b, c]) := by
  obtain ⟨x, y, d, r, ha, hb, hc, -, rfl⟩ | ⟨e, rfl, -⟩ := binary_cases h
  · exact .inr ⟨hs, by simp [AllResolve, ha, hb, resolve_of_resolveTarget hc]⟩
  · exact .inl rfl

theorem jumpOn_state {s t : State} {z : Bool} {a b : Operand} (hs : s.state = .running)
    (h : s.jumpOn z a b = .next t) : t.state = .faulted ∨ (t.state = .running ∧ AllResolve s.rb [a, b]) := by
  obtain ⟨x, y, ha, hb, rfl⟩ | ⟨ea, rfl, -⟩ := jumpOn_cases h
  · exact .inr ⟨by split <;> exact hs, by simp [AllResolve, ha, hb]⟩
  · exact .inl rfl

/-- A step that does not fault resolved every operand, and leads to the state of its instruction. -/
theorem exec_state {i : Instr} {s t : State} (hs : s.state = .running) (h : exec i s = .next t) :
    t.state = .faulted ∨ (t.state = stateAfter i ∧ AllResolve s.rb i.operands) := by
  cases i with
  | add a b c => exact binary_state (op := .add) hs h
  | multiply a b c => exact binary_state (op := .mul) hs h
  | lessThan a b c => exact binary_state (op := .lt) hs h
  | equals a b c => exact binary_state (op := .eq) hs h
  | jumpIfTrue a b => exact jumpOn_state (z := false) hs h
  | jumpIfFalse a b => exact jumpOn_state (z := true) hs h
  | input a =>
    obtain ⟨d, hd, rfl⟩ | ⟨rfl, -⟩ | ⟨ea, rfl, -⟩ := execInput_cases h
    · exact .inr ⟨rfl, by simp [AllResolve, Instr.operands, resolve_of_resolveTarget hd]⟩
    · exact .inl rfl
    · exact .inl rfl
  | output a =>
    obtain ⟨x, hx, -, -, rfl⟩ | ⟨x, -, -, rfl⟩ | ⟨ea, -, rfl, -⟩ := execOutput_cases h
    · exact .inr ⟨hs, by simp [AllResolve, Instr.operands, hx]⟩
    · exact .inl rfl
    · exact .inl rfl
  | adjustRelativeBase a =>
    obtain ⟨x, r, hx, -, rfl⟩ | ⟨rfl, -⟩ | ⟨ea, rfl, -⟩ := execAdjustRelativeBase_cases h
    · exact .inr ⟨hs, by simp [AllResolve, Instr.operands, hx]⟩
    · exact .inl rfl
    · exact .inl rfl
  | halt =>
    obtain rfl := Host.Outcome.next.inj h
    exact .inr ⟨rfl, by simp [AllResolve, Instr.operands]⟩

/-- An operand address out of range faults, and never blocks: the address is checked before the queue (R115, R184). -/
theorem exec_faults_of_addressFault {i : Instr} {s : State} {e : Trap} (hs : s.state = .running)
    (h : firstAddressFault s.rb i.operands = some e) : ∃ t, exec i s = .next t ∧ t.state = .faulted := by
  have hbad : ¬ AllResolve s.rb i.operands := not_allResolve_of_addressFault h
  have hnext : ∃ t, exec i s = .next t := by
    by_cases hi : ∀ a, i ≠ .output a
    · exact exec_next_of_not_output s hi
    · obtain ⟨a, rfl⟩ := by simpa using hi
      rcases execOutput_next_or_blocked a s with hnext | ⟨hx, -⟩
      · exact hnext
      · exact absurd (by simpa [AllResolve, Instr.operands] using hx) hbad
  obtain ⟨t, ht⟩ := hnext
  rcases exec_state hs ht with hfault | ⟨-, hres⟩
  · exact ⟨t, ht, hfault⟩
  · exact absurd hres hbad

/-! ### The steps that are sure not to fault -/

theorem aluUnder_wrap (op : AluOp) (a b : Word) : aluUnder .wrap op a b = .ok (alu op a b).1 := by
  simp [aluUnder_eq]

theorem binary_completes {s : State} {a b c : Operand} (op : AluOp) (hs : s.state = .running)
    (hp : s.params.ovfPolicy = .wrap) (hw : c.writable = true) (h : AllResolve s.rb [a, b, c]) :
    ∃ t, s.binary op a b c = .next t ∧ t.state = .running := by
  obtain ⟨x, ha⟩ := h a (by simp)
  obtain ⟨y, hb⟩ := h b (by simp)
  obtain ⟨z, hc⟩ := h c (by simp)
  obtain ⟨d, hd⟩ := resolveTarget_of_resolve hc hw
  exact ⟨_, binary_next ha hb hd (hp ▸ aluUnder_wrap op _ _), hs⟩

theorem jumpOn_completes {s : State} {a b : Operand} (z : Bool) (hs : s.state = .running) (h : AllResolve s.rb [a, b]) :
    ∃ t, s.jumpOn z a b = .next t ∧ t.state = .running := by
  obtain ⟨x, ha⟩ := h a (by simp)
  obtain ⟨y, hb⟩ := h b (by simp)
  exact ⟨_, jumpOn_next ha hb, by split <;> exact hs⟩

theorem execInput_of_target {s : State} {a : Operand} {d : Nat} (h : resolveTarget s.rb a = .ok d) :
    execInput a s = .next (s.beginWait d) := by
  simp [execInput, State.commit, h, bind, Except.bind, pure, Except.pure]

theorem execAdjustRelativeBase_of_wrap {s : State} {a : Operand} {x : Resolved} (hp : s.params.ovfPolicy = .wrap)
    (hx : resolve s.rb a = .ok x) :
    execAdjustRelativeBase a s = .next ((s.setRb (alu .add s.rb (s.value x)).1).advance 2) := by
  simp [execAdjustRelativeBase, State.commit, hx, hp, aluUnder_wrap, bind, Except.bind, pure, Except.pure]

/-- A well-formed instruction completes where its operands resolve, no sum or product can fault, and the output is
connected with room. -/
theorem exec_completes {i : Instr} {s : State} (hs : s.state = .running) (hw : i.wf = true)
    (hres : AllResolve s.rb i.operands) (hp : s.params.ovfPolicy = .wrap) (hd : s.outDisc = false)
    (hf : s.outFull = false) : ∃ t, exec i s = .next t ∧ t.state = stateAfter i := by
  cases i with
  | add a b c => exact binary_completes .add hs hp hw hres
  | multiply a b c => exact binary_completes .mul hs hp hw hres
  | lessThan a b c => exact binary_completes .lt hs hp hw hres
  | equals a b c => exact binary_completes .eq hs hp hw hres
  | jumpIfTrue a b => exact jumpOn_completes false hs hres
  | jumpIfFalse a b => exact jumpOn_completes true hs hres
  | input a =>
    obtain ⟨x, hx⟩ := hres a (by simp [Instr.operands])
    obtain ⟨d, htarget⟩ := resolveTarget_of_resolve hx hw
    exact ⟨_, execInput_of_target htarget, rfl⟩
  | output a =>
    obtain ⟨x, hx⟩ := hres a (by simp [Instr.operands])
    exact ⟨_, execOutput_of_room hx hd hf, hs⟩
  | adjustRelativeBase a =>
    obtain ⟨x, hx⟩ := hres a (by simp [Instr.operands])
    exact ⟨_, execAdjustRelativeBase_of_wrap hp hx, hs⟩
  | halt => exact ⟨s.halt, rfl, rfl⟩

/-- The states a step out of RUNNING can lead to, each with the instructions that lead there (R141). -/
theorem exec_transition {i : Instr} {s t : State} (hs : s.state = .running) (h : exec i s = .next t) :
    t.state = .faulted ∨ (t.state = .waitingForInput ∧ ∃ a, i = .input a) ∨ (t.state = .halted ∧ i = .halt) ∨
      (t.state = .running ∧ i ≠ .halt ∧ ∀ a, i ≠ .input a) := by
  rcases exec_state hs h with hfault | ⟨ht, -⟩
  · exact .inl hfault
  · cases i with
    | input a => exact .inr (.inl ⟨ht, a, rfl⟩)
    | halt => exact .inr (.inr (.inl ⟨ht, rfl⟩))
    | _ => exact .inr (.inr (.inr ⟨ht, nofun, nofun⟩))

/-- Settles O35, one row of R141 after the other. -/
theorem stateMachineTransitions : Obligations.StateMachineTransitions := by
  refine ⟨fun _ _ _ => rfl, fun s => ⟨fun i t hs hf h => ?stepTaken,
    fun i hs hf hh hi haddr hp hd hroom => ?keepsRunning, fun a d hs hf ha => ?beginsWait, fun hs hf => ?halts,
    fun e hs hf => ?decodeFault, fun i e hs hf he => ?addressFault,
    fun a x n hs hf hx hn hlen hd t => ?outputBlocks, fun hs hq => ?inputCompletes, fun hs hq hc => ?inputFaults,
    fun hs hq hc t => ?inputBlocks, step_of_ended⟩⟩
  case stepTaken => exact exec_transition hs (step_exec hs hf ▸ h)
  case keepsRunning =>
    rw [step_exec hs hf, ← stateAfter_eq_running hh hi]
    exact exec_completes hs (fetch_wf hf) (allResolve_of_no_addressFault haddr) hp hd (State.outFull_eq_false hroom)
  case beginsWait => exact ⟨_, (step_exec hs hf).trans (execInput_of_target ha), rfl⟩
  case halts => exact ⟨s.halt, step_exec hs hf, rfl⟩
  case decodeFault => exact ⟨_, step_fetch_error hs hf, rfl⟩
  case addressFault =>
    rw [step_exec hs hf]
    exact exec_faults_of_addressFault hs he
  case outputBlocks =>
    have hfull : s.outFull = true := s.outFull_iff.2 ⟨n, hn, hlen.ge⟩
    simp [step_of_outputBlocked ⟨hs, hd, hfull, a, x, hf, hx⟩]
  case inputCompletes =>
    obtain ⟨v, q, hvq⟩ := List.exists_cons_of_ne_nil hq
    exact ⟨((s.store s.inTarget v).endWait q).advance 2, by rw [step_waiting hs, completeInput, hvq], rfl⟩
  case inputFaults => exact ⟨s.raise .inputDisconnected, by simp [step_waiting hs, completeInput, hq, hc], rfl⟩
  case inputBlocks => simp [step_of_inputBlocked ⟨hs, hq, hc⟩]

end Sys2Proof.Machine
end

section
/-! The arithmetic family (spec 41_arithmetic.md): what `add64` and `mul64` compute, when a binary instruction stores and
when it overflows, and from these Add, Multiply, LessThan and Equals in every operand form. -/

namespace Sys2Proof.Machine

/-! ### Wrapping and the comparison words -/

/-- `wrap64` gives the word congruent to its argument (00_scope.md R13). -/
theorem toInt_wrap64_sub_emod (v : Int) : ((wrap64 v).toInt - v) % 18446744073709551616 = 0 := by
  have hmod : (wrap64 v).toInt % 18446744073709551616 = v % 18446744073709551616 := by
    rw [wrap64, BitVec.toInt_ofInt]
    exact Int.bmod_emod
  exact Int.emod_eq_emod_iff_emod_sub_eq_zero.1 hmod

theorem not_fits64_iff (v : Int) :
    (!fits64 v) = true ↔ ¬ (-9223372036854775808 ≤ v ∧ v ≤ 9223372036854775807) := by
  rw [Bool.not_eq_true', ← Bool.not_eq_true, fits64_iff]

theorem bitWord_decide (p : Prop) [Decidable p] : bitWord (decide p) = if p then 1#64 else 0#64 := by
  simp [bitWord]

/-- Settles O13: both operations are `wrap64` and the negated `fits64` of the exact result. -/
theorem addAndMultiplyWrapExactResults : Obligations.AddAndMultiplyWrapExactResults :=
  fun _ _ => ⟨⟨toInt_wrap64_sub_emod _, not_fits64_iff _⟩, ⟨toInt_wrap64_sub_emod _, not_fits64_iff _⟩⟩

/-! ### The words and the effect of a binary instruction -/

/-- An instruction's words, the opcode word's sum in the order of its decimal digits (30_encoding.md R100, R101). -/
theorem encode_eq_digits (i : Instr) : encode i =
    BitVec.ofNat 64 (10000 * i.head.m3.digit + 1000 * i.head.m2.digit + 100 * i.head.m1.digit + i.head.op.code) ::
      i.operands.map Operand.raw := by
  rw [encode, encodeHead]
  congr 2
  omega

section
variable {s : State} {op : AluOp} {a b c : Operand} {x y : Resolved} {d : Nat}
  (ha : resolve s.rb a = .ok x) (hb : resolve s.rb b = .ok y) (hc : resolveTarget s.rb c = .ok d)
include ha hb hc

/-- Under WRAP, or where `ovf` is 0, a binary instruction stores the ALU's result word (41_arithmetic.md R161). -/
theorem binary_stores (h : s.params.ovfPolicy = .wrap ∨ (alu op (s.value x) (s.value y)).2 = false) :
    s.binary op a b c = .next ((s.store d (alu op (s.value x) (s.value y)).1).advance 4) := by
  refine binary_next ha hb hc ?_
  rcases h with hp | hovf
  · rw [hp, aluUnder_wrap]
  · simp [aluUnder_eq, hovf]

/-- Under FAULT with `ovf` at 1 it raises OVERFLOW and writes nothing (41_arithmetic.md R161). -/
theorem binary_raises_overflow (hp : s.params.ovfPolicy = .fault)
    (hovf : (alu op (s.value x) (s.value y)).2 = true) : s.binary op a b c = .next (s.raise .overflow) :=
  binary_overflow ha hb hc (by simp [aluUnder_eq, hp, hovf])

end

/-! ### The four instructions -/

/-- Settles O14: the ALU's `ovf` for add is the negated `fits64` of the exact sum. -/
theorem addStoresSumOrOverflows : Obligations.AddStoresSumOrOverflows := by
  refine fun s a b c => ⟨encode_eq_digits (.add a b c), fun x y d ha hb hc =>
    ⟨fun h => ?stores, fun hp hmisfit => ?overflows⟩⟩
  case stores => exact binary_stores (op := .add) ha hb hc (h.imp_right (congrArg not))
  case overflows => exact binary_raises_overflow (op := .add) ha hb hc hp (congrArg not hmisfit)

/-- Settles O15: the ALU's `ovf` for multiply is the negated `fits64` of the exact product. -/
theorem multiplyStoresProductOrOverflows : Obligations.MultiplyStoresProductOrOverflows := by
  refine fun s a b c => ⟨encode_eq_digits (.multiply a b c), fun x y d ha hb hc =>
    ⟨fun h => ?stores, fun hp hmisfit => ?overflows⟩⟩
  case stores => exact binary_stores (op := .mul) ha hb hc (h.imp_right (congrArg not))
  case overflows => exact binary_raises_overflow (op := .mul) ha hb hc hp (congrArg not hmisfit)

/-- Settles O16: the comparison never sets `ovf`, so its word is stored under either policy. -/
theorem lessThanStoresSignedComparison : Obligations.LessThanStoresSignedComparison := by
  refine fun s a b c => ⟨encode_eq_digits (.lessThan a b c), fun x y d ha hb hc => ?_⟩
  rw [← bitWord_decide]
  exact binary_stores (op := .lt) ha hb hc (.inr rfl)

/-- Settles O17: the comparison never sets `ovf`, so its word is stored under either policy. -/
theorem equalsStoresWordEquality : Obligations.EqualsStoresWordEquality := by
  refine fun s a b c => ⟨encode_eq_digits (.equals a b c), fun x y d ha hb hc => ?_⟩
  rw [← bitWord_decide]
  exact binary_stores (op := .eq) ha hb hc (.inr rfl)

end Sys2Proof.Machine
end

section
/-! Input and Output (spec 42_io.md R180 to R184): their words, and what each step answers in each situation of the
queues, where the lemmas of the state machine do not already say it. -/

namespace Sys2Proof.Machine

/-- The opcode word of format F1: only the first mode digit can differ from 0 (30_encoding.md R102, R114). -/
theorem encodeHead_one_operand (op : Opcode) (m : Mode) :
    encodeHead ⟨op, m, .absolute, .absolute⟩ = BitVec.ofNat 64 (100 * m.digit + op.code) := by
  simp [encodeHead, Mode.digit, Nat.add_comm]

theorem encode_input (a : Operand) : encode (.input a) = [BitVec.ofNat 64 (100 * a.mode.digit + 3), a.raw] :=
  congrArg (· :: [a.raw]) (encodeHead_one_operand .input a.mode)

theorem encode_output (a : Operand) : encode (.output a) = [BitVec.ofNat 64 (100 * a.mode.digit + 4), a.raw] :=
  congrArg (· :: [a.raw]) (encodeHead_one_operand .output a.mode)

theorem execInput_of_target_error {s : State} {a : Operand} {e : Trap} (h : resolveTarget s.rb a = .error e) :
    execInput a s = .next (s.raise e) := by
  simp [execInput, State.commit, h, bind, Except.bind]

theorem completeInput_of_cons {s : State} {v : Word} {q : List Word} (hq : s.inQ = v :: q) :
    completeInput s = .next (((s.store s.inTarget v).endWait q).advance 2) := by
  simp [completeInput, hq]

theorem completeInput_of_closed {s : State} (hq : s.inQ = []) (hc : s.inClosed = true) :
    completeInput s = .next (s.raise .inputDisconnected) := by
  simp [completeInput, hq, hc]

/-- The disconnection is looked at before the queue, so a full queue does not block it. -/
theorem execOutput_of_disconnected {s : State} {a : Operand} {x : Resolved} (hx : resolve s.rb a = .ok x)
    (hd : s.outDisc = true) : execOutput a s = .next (s.raise .outputDisconnected) := by
  simp [execOutput, hx, hd]

/-- Settles O19: whether the target resolves decides between the wait and the fault; no queue is looked at. -/
theorem inputBeginsWait : Obligations.InputBeginsWait :=
  fun _ a => ⟨encode_input a, fun _ hd => ⟨execInput_of_target hd, rfl⟩,
    fun _ he => ⟨execInput_of_target_error he, rfl, rfl⟩⟩

/-- Settles O20: the queue is looked at before the close, and only an empty open queue blocks. -/
theorem inputCompletesOrFaultsOrBlocks : Obligations.InputCompletesOrFaultsOrBlocks := by
  refine fun s hs => ⟨fun v q hq => ⟨?consumes, rfl⟩, fun hq hc => ⟨?faults, rfl, rfl, rfl⟩, fun hq hc t => ?blocks⟩
  case consumes => exact (step_waiting hs).trans (completeInput_of_cons hq)
  case faults => exact (step_waiting hs).trans (completeInput_of_closed hq hc)
  case blocks => simp [step_of_inputBlocked ⟨hs, hq, hc⟩]

/-- Settles O21: the disconnection is looked at first, then the room below `OUT_CAP`. -/
theorem outputPushesOrFaultsOrBlocks : Obligations.OutputPushesOrFaultsOrBlocks := by
  refine fun s a => ⟨encode_output a, fun x hx =>
    ⟨fun hd => ⟨?faults, rfl⟩, fun n hd hn hlen t => ?blocks, fun hd hroom => ?pushes⟩⟩
  case faults => exact execOutput_of_disconnected hx hd
  case blocks =>
    have hfull : s.outFull = true := s.outFull_iff.2 ⟨n, hn, hlen.ge⟩
    simp [exec, execOutput_of_full hx hd hfull]
  case pushes => exact execOutput_of_room hx hd (State.outFull_eq_false hroom)

end Sys2Proof.Machine
end

section
/-! Control transfer, the relative base and Halt (spec 43_control.md): the words of the jumps and of AdjustRelativeBase,
and what each instruction answers where its operands resolve. -/

namespace Sys2Proof.Machine

/-! ### The jumps -/

/-- The opcode word of format F2: the third mode digit is 0 (30_encoding.md R102, R114). -/
theorem encodeHead_two_operands (op : Opcode) (m n : Mode) :
    encodeHead ⟨op, m, n, .absolute⟩ = BitVec.ofNat 64 (1000 * n.digit + 100 * m.digit + op.code) := by
  rw [encodeHead]
  congr 1
  simp only [Mode.digit]
  omega

theorem encode_jumpIfTrue (a b : Operand) : encode (.jumpIfTrue a b) =
    [BitVec.ofNat 64 (1000 * b.mode.digit + 100 * a.mode.digit + 5), a.raw, b.raw] :=
  congrArg (· :: [a.raw, b.raw]) (encodeHead_two_operands .jumpIfTrue a.mode b.mode)

theorem encode_jumpIfFalse (a b : Operand) : encode (.jumpIfFalse a b) =
    [BitVec.ofNat 64 (1000 * b.mode.digit + 100 * a.mode.digit + 6), a.raw, b.raw] :=
  congrArg (· :: [a.raw, b.raw]) (encodeHead_two_operands .jumpIfFalse a.mode b.mode)

section
variable {s : State} {a b : Operand} {x y : Resolved} (ha : resolve s.rb a = .ok x) (hb : resolve s.rb b = .ok y)
include ha hb

/-- Taken or not, a jump writes `pc` alone; `p` is its condition (43_control.md R200). -/
theorem jumpOn_sets_pc {z : Bool} {p : Prop} [Decidable p] (hp : decide (s.value x ≠ 0#64) = !z ↔ p) :
    s.jumpOn z a b = .next { s with pc := if p then s.value y else s.pc + 3#64 } := by
  rw [jumpOn_next ha hb]
  by_cases h : p
  · rw [if_pos (hp.2 h), if_pos h]; rfl
  · rw [if_neg (mt hp.1 h), if_neg h]; rfl

theorem exec_jumpIfTrue : exec (.jumpIfTrue a b) s =
    .next { s with pc := if s.value x ≠ 0#64 then s.value y else s.pc + 3#64 } :=
  jumpOn_sets_pc (z := false) ha hb (by simp)

theorem exec_jumpIfFalse : exec (.jumpIfFalse a b) s =
    .next { s with pc := if s.value x = 0#64 then s.value y else s.pc + 3#64 } :=
  jumpOn_sets_pc (z := true) ha hb (by simp)

/-- Either jump, taken, goes to the target's value, whatever word that is (43_control.md R203). -/
theorem exec_taken_jump {i : Instr}
    (hi : (i = .jumpIfTrue a b ∧ s.value x ≠ 0#64) ∨ (i = .jumpIfFalse a b ∧ s.value x = 0#64)) :
    exec i s = .next (s.jump (s.value y)) := by
  obtain ⟨rfl, hx⟩ | ⟨rfl, hx⟩ := hi
  · rw [exec_jumpIfTrue ha hb, if_pos hx]; rfl
  · rw [exec_jumpIfFalse ha hb, if_pos hx]; rfl

end

/-- Settles O22: the words of format F2, and a jump on a non-zero condition. -/
theorem jumpIfTrueSetsPc : Obligations.JumpIfTrueSetsPc :=
  fun _ a b => ⟨encode_jumpIfTrue a b, fun _ _ ha hb => exec_jumpIfTrue ha hb⟩

/-- Settles O23: the words of format F2, and a jump on a zero condition. -/
theorem jumpIfFalseSetsPc : Obligations.JumpIfFalseSetsPc :=
  fun _ a b => ⟨encode_jumpIfFalse a b, fun _ _ ha hb => exec_jumpIfFalse ha hb⟩

/-- Settles O24: the jump itself looks at no range, and the state it leaves has a negative `pc`, where the fetch faults
(`fetchStaysInAddressSpace`). -/
theorem negativeJumpTargetFaultsAtNextFetch : Obligations.NegativeJumpTargetFaultsAtNextFetch := by
  refine ⟨fun s i a b x y hs ha hb hneg hi => ?_, fun w => (inRange_toInt w).2⟩
  obtain ⟨hfetch, -, -⟩ := fetchStaysInAddressSpace (s.jump (s.value y)) hs
  obtain ⟨u, hu⟩ := hfetch hneg
  exact ⟨_, u, exec_taken_jump ha hb hi, rfl, hs, hu⟩

/-! ### AdjustRelativeBase -/

theorem encode_adjustRelativeBase (a : Operand) :
    encode (.adjustRelativeBase a) = [BitVec.ofNat 64 (100 * a.mode.digit + 9), a.raw] :=
  congrArg (· :: [a.raw]) (encodeHead_one_operand .adjustRelativeBase a.mode)

section
variable {s : State} {a : Operand} {x : Resolved} (hx : resolve s.rb a = .ok x)
include hx

/-- The sum is the whole of AdjustRelativeBase: its word goes to `rb`, and its fault is raised. -/
theorem execAdjustRelativeBase_eq : execAdjustRelativeBase a s =
    s.commit ((aluUnder s.params.ovfPolicy .add s.rb (s.value x)).map fun r => (s.setRb r).advance 2) := by
  rw [execAdjustRelativeBase, hx]
  rfl

theorem execAdjustRelativeBase_of_fits (hfits : fits64 (s.rb.toInt + (s.value x).toInt) = true) :
    execAdjustRelativeBase a s = .next ((s.setRb (wrap64 (s.rb.toInt + (s.value x).toInt))).advance 2) := by
  have hovf : (alu .add s.rb (s.value x)).2 = false := congrArg not hfits
  rw [execAdjustRelativeBase_eq hx, aluUnder_eq, if_neg (by simp [hovf])]
  rfl

/-- Under FAULT a sum that does not fit raises OVERFLOW, and `rb` is kept. -/
theorem execAdjustRelativeBase_of_misfit (hp : s.params.ovfPolicy = .fault)
    (hmisfit : fits64 (s.rb.toInt + (s.value x).toInt) = false) :
    execAdjustRelativeBase a s = .next (s.raise .overflow) := by
  have hovf : (alu .add s.rb (s.value x)).2 = true := congrArg not hmisfit
  rw [execAdjustRelativeBase_eq hx, aluUnder_eq, if_pos ⟨hovf, hp⟩]
  rfl

end

/-- Settles O26: a sum that WRAP wraps or that fits goes to `rb`; one that does not fit faults under FAULT. -/
theorem adjustRelativeBaseAddsToRb : Obligations.AdjustRelativeBaseAddsToRb := by
  refine fun s a => ⟨encode_adjustRelativeBase a, fun x hx => ⟨fun h => ?adds, fun hp hmisfit => ?overflows⟩⟩
  case adds =>
    rcases h with hp | hfits
    · exact execAdjustRelativeBase_of_wrap hp hx
    · exact execAdjustRelativeBase_of_fits hx hfits
  case overflows => exact execAdjustRelativeBase_of_misfit hx hp hmisfit

/-! ### Halt -/

/-- Settles O27: `State.halt` writes the two fields named, and HALTED is not the wait. -/
theorem haltEndsRunAndClosesOutput : Obligations.HaltEndsRunAndClosesOutput :=
  ⟨rfl, fun _ => ⟨rfl, rfl⟩⟩

end Sys2Proof.Machine
end

section
/-! Fault entry (spec 60_exceptions.md R221, R229): a step into FAULTED is a raise, and an address it records is `pc`,
the successor of the instruction at `pc`, or the exact address of one of its operands. -/

namespace Sys2Proof.Machine

/-! ### What a raise records -/

theorem Trap.cause_code (e : Trap) : e.cause.code = trapCode e := by
  cases e with
  | head f => cases f <;> rfl
  | address | inputDisconnected | outputDisconnected | overflow => rfl

theorem Trap.cause_ne_none (e : Trap) : e.cause ≠ .none := by
  cases e with
  | head f => cases f <;> nofun
  | address | inputDisconnected | outputDisconnected | overflow => nofun

theorem Trap.eq_address_of_cause {e : Trap} (h : e.cause = .address) : e = .address e.addr := by
  cases e with
  | head f => cases f <;> cases h
  | address => rfl
  | inputDisconnected | outputDisconnected | overflow => cases h

theorem Trap.addr_eq_zero {e : Trap} (h : e.cause ≠ .address) : e.addr = 0 := by
  cases e with
  | address => exact absurd rfl h
  | head | inputDisconnected | outputDisconnected | overflow => rfl

theorem State.wordAtPc_eq (s : State) :
    s.wordAtPc = if 0 ≤ s.pc.toInt ∧ s.pc.toInt ≤ maxAddr then s.mem.read s.pc.toNat else 0#64 := by
  simp only [State.wordAtPc, inRange_iff]

/-! ### Every step into FAULTED is a raise -/

/-- `t` is a raise from `s`; where its fault is ADDRESS, the address it carries satisfies `P`. -/
def RaisedFrom (s : State) (P : Int → Prop) (t : State) : Prop :=
  ∃ e, t = s.raise e ∧ ∀ ea, e = .address ea → P ea

theorem RaisedFrom.address {s : State} {P : Int → Prop} {ea : Int} (h : P ea) :
    RaisedFrom s P (s.raise (.address ea)) :=
  ⟨_, rfl, fun _ he => Trap.address.inj he ▸ h⟩

theorem RaisedFrom.other {s : State} {P : Int → Prop} {e : Trap} (h : ∀ ea, e ≠ .address ea) :
    RaisedFrom s P (s.raise e) :=
  ⟨e, rfl, fun ea he => absurd he (h ea)⟩

theorem RaisedFrom.mono {s t : State} {P Q : Int → Prop} (hPQ : ∀ ea, P ea → Q ea) (h : RaisedFrom s P t) :
    RaisedFrom s Q t := by
  obtain ⟨e, rfl, hP⟩ := h
  exact ⟨e, rfl, fun ea he => hPQ ea (hP ea he)⟩

theorem binary_raisedFrom {s t : State} {op : AluOp} {a b c : Operand} (hs : s.state = .running)
    (h : s.binary op a b c = .next t) (hf : t.state = .faulted) : RaisedFrom s (BadAddress s [a, b, c]) t := by
  obtain ⟨x, y, d, r, -, -, -, -, rfl⟩ | ⟨e, rfl, ⟨rfl, -⟩ | ⟨ea, rfl, hbad⟩ | ⟨rfl, -⟩⟩ := binary_cases h
  · simp [hs] at hf
  · exact .other nofun
  · exact .address hbad
  · exact .other nofun

theorem jumpOn_raisedFrom {s t : State} {z : Bool} {a b : Operand} (hs : s.state = .running)
    (h : s.jumpOn z a b = .next t) (hf : t.state = .faulted) : RaisedFrom s (BadAddress s [a, b]) t := by
  obtain ⟨x, y, -, -, rfl⟩ | ⟨ea, rfl, hbad⟩ := jumpOn_cases h
  · split at hf <;> simp [hs] at hf
  · exact .address hbad

/-- In execution the only addresses a fault can record are those of the operands. -/
theorem exec_raisedFrom {i : Instr} {s t : State} (hs : s.state = .running) (h : exec i s = .next t)
    (hf : t.state = .faulted) : RaisedFrom s (BadAddress s i.operands) t := by
  cases i with
  | add a b c => exact binary_raisedFrom (op := .add) hs h hf
  | multiply a b c => exact binary_raisedFrom (op := .mul) hs h hf
  | lessThan a b c => exact binary_raisedFrom (op := .lt) hs h hf
  | equals a b c => exact binary_raisedFrom (op := .eq) hs h hf
  | jumpIfTrue a b => exact jumpOn_raisedFrom (z := false) hs h hf
  | jumpIfFalse a b => exact jumpOn_raisedFrom (z := true) hs h hf
  | input a =>
    obtain ⟨d, -, rfl⟩ | ⟨rfl, -⟩ | ⟨ea, rfl, hbad⟩ := execInput_cases h
    · simp at hf
    · exact .other nofun
    · exact .address hbad
  | output a =>
    obtain ⟨x, -, -, -, rfl⟩ | ⟨x, -, -, rfl⟩ | ⟨ea, -, rfl, hbad⟩ := execOutput_cases h
    · simp [hs] at hf
    · exact .other nofun
    · exact .address hbad
  | adjustRelativeBase a =>
    obtain ⟨x, r, -, -, rfl⟩ | ⟨rfl, -⟩ | ⟨ea, rfl, hbad⟩ := execAdjustRelativeBase_cases h
    · simp [hs] at hf
    · exact .other nofun
    · exact .address hbad
  | halt =>
    obtain rfl := Host.Outcome.next.inj h
    simp at hf

/-- The addresses an ADDRESS fault of the step from `s` can be about (R224): `pc`, the successor of the instruction at
`pc`, or the exact address of one of its operands. -/
def FaultOrigin (s : State) (ea : Int) : Prop :=
  ea = s.pc.toInt ∨ (∃ h, decodeHead s.wordAtPc = .ok h ∧ ea = s.pc.toInt + h.op.arity + 1) ∨
    ∃ i, fetch s = .ok i ∧ ∃ o ∈ i.operands, effectiveAddress s.rb o = some ea

theorem fetch_raisedFrom {s : State} {e : Trap} (h : fetch s = .error e) :
    RaisedFrom s (fun ea => inRange ea = false ∧ FaultOrigin s ea) (s.raise e) := by
  obtain ⟨hr, rfl⟩ | ⟨f, -, -, rfl⟩ | ⟨hd, hr, hdec, htop, rfl⟩ := fetch_error h
  · exact .address ⟨hr, .inl rfl⟩
  · exact .other nofun
  · have hout : inRange (s.pc.toInt + hd.op.length) = false := by
      rw [Bool.eq_false_iff, Ne, inRange_iff]; omega
    have hword : decodeHead s.wordAtPc = .ok hd := by
      rw [State.wordAtPc_of_nonneg ((inRange_toInt _).1 hr), hdec]
    exact .address ⟨hout, .inr (.inl ⟨hd, hword, by simp [Opcode.length, add_assoc]⟩)⟩

theorem step_raisedFrom {s t : State} (h : step s = .next t) (hf : t.state = .faulted) :
    RaisedFrom s (fun ea => inRange ea = false ∧ FaultOrigin s ea) t := by
  obtain ⟨-, e, hfetch, rfl⟩ | ⟨hs, i, hfetch, hx⟩ | ⟨-, hc⟩ := step_cases h
  · exact fetch_raisedFrom hfetch
  · exact (exec_raisedFrom hs hx hf).mono fun ea ⟨hr, ho⟩ => ⟨hr, .inr (.inr ⟨i, hfetch, ho⟩)⟩
  · obtain ⟨v, q, -, rfl⟩ | ⟨-, -, rfl⟩ := completeInput_cases hc
    · simp at hf
    · exact .other nofun

/-! ### The recorded address is exact -/

theorem effectiveAddress_bounds {rb : Word} {o : Operand} {ea : Int} (h : effectiveAddress rb o = some ea) :
    -2 ^ 64 ≤ ea ∧ ea < 2 ^ 64 := by
  have hrb := toInt_bounds rb
  have hraw := toInt_bounds o.raw
  unfold effectiveAddress at h
  split at h
  · obtain rfl := Option.some.inj h; omega
  · obtain rfl := Option.some.inj h; omega
  · cases h

/-- No address a fault is about needs more than 65 bits. -/
theorem FaultOrigin.bounds {s : State} {ea : Int} (h : FaultOrigin s ea) : -2 ^ 64 ≤ ea ∧ ea < 2 ^ 64 := by
  have hpc := toInt_bounds s.pc
  obtain rfl | ⟨hd, -, rfl⟩ | ⟨i, -, o, -, hea⟩ := h
  · omega
  · have hlen : hd.op.arity + 1 ≤ 4 := (Laws.EncodedLength.opcode_length_bounds hd.op).2
    omega
  · exact effectiveAddress_bounds hea

/-- `fault_addr` loses nothing of the address a fault is about (R39). -/
theorem FaultOrigin.toInt_faultAddr {s : State} {ea : Int} (h : FaultOrigin s ea) :
    (BitVec.ofInt 128 ea).toInt = ea := by
  have := h.bounds
  rw [BitVec.toInt_ofInt]
  exact Int.bmod_eq_of_le (by omega) (by omega)

/-- Settles O38: a faulting step is a raise, which writes the fault record, `state` and `out_closed` only, and its
128-bit `fault_addr` holds the exact address. -/
theorem faultEntryIsPrecise : Obligations.FaultEntryIsPrecise := by
  refine ⟨fun _ e => e.cause_code, fun s t h hf => ?_⟩
  obtain ⟨e, rfl, haddress⟩ := step_raisedFrom h hf
  refine ⟨⟨e, rfl⟩, e.cause_ne_none, rfl, s.wordAtPc_eq, fun hc => ?noAddress, fun hc => ?address,
    rfl, rfl, rfl, rfl, rfl, rfl, rfl, rfl, rfl, rfl⟩
  case noAddress =>
    rw [State.raise_faultAddr, Trap.addr_eq_zero hc]
    rfl
  case address =>
    obtain ⟨hout, horigin⟩ := haddress e.addr (Trap.eq_address_of_cause hc)
    rw [State.raise_faultAddr, horigin.toInt_faultAddr]
    rw [Bool.eq_false_iff, Ne, inRange_iff] at hout
    exact ⟨by omega, horigin⟩

end Sys2Proof.Machine
end

section
/-! The encoding (spec 30_encoding.md R100 to R120): the decoder inverts the encoder on opcode words and on whole
instructions, and the legal opcode words are those of the table. -/

namespace Sys2Proof

/-! ### Opcode words -/

theorem Opcode.ofCode_eq_some_iff {n : Nat} {op : Opcode} : Opcode.ofCode n = some op ↔ n = op.code := by
  refine ⟨fun h => ?_, fun h => h ▸ Opcode.ofCode_code op⟩
  unfold Opcode.ofCode at h
  split at h <;> cases h <;> rfl

/-- A mode stands for its digit, and beyond the arity only Absolute is left (R106 to R109, R114). -/
theorem decodeMode_eq_ok_iff {n k d : Nat} {m : Mode} :
    decodeMode n k d = .ok m ↔ d = m.digit ∧ (k ≤ n ∨ m = .absolute) := by
  unfold decodeMode
  by_cases hk : k ≤ n
  · rcases d with _ | _ | _ | d <;> cases m <;> simp [hk, Mode.digit]
  · rcases d with _ | d <;> cases m <;> simp [hk, Mode.digit]

/-- What the decoder has checked of an opcode word it accepts, in the order of R115. -/
theorem decodeHead_eq_ok_iff_checks {w : Word} {h : Head} :
    decodeHead w = .ok h ↔ 0 ≤ w.toInt ∧ Opcode.ofCode (w.toNat % 100) = some h.op ∧ w.toNat < 100000 ∧
      decodeMode h.op.arity 1 (digit 2 w.toNat) = .ok h.m1 ∧ decodeMode h.op.arity 2 (digit 3 w.toNat) = .ok h.m2 ∧
      decodeMode h.op.arity 3 (digit 4 w.toNat) = .ok h.m3 ∧ h.writeOk = true := by
  constructor
  · intro hd
    unfold decodeHead at hd
    repeat' split at hd
    all_goals cases hd
    exact ⟨by omega, ‹_›, by omega, ‹_›, ‹_›, ‹_›, ‹_›⟩
  · rintro ⟨h0, hop, hlt, hm1, hm2, hm3, hw⟩
    simp [decodeHead, h0.not_gt, hop, hlt.not_ge, hm1, hm2, hm3, hw]

theorem Head.legal_iff (h : Head) : h.legal = true ↔ h.writeOk = true ∧ (1 ≤ h.op.arity ∨ h.m1 = .absolute) ∧
    (2 ≤ h.op.arity ∨ h.m2 = .absolute) ∧ (3 ≤ h.op.arity ∨ h.m3 = .absolute) := by
  simp [Head.legal, and_assoc]

theorem Opcode.code_lt (op : Opcode) : op.code < 100 := by cases op <;> decide

theorem Mode.digit_le (m : Mode) : m.digit ≤ 2 := by cases m <;> decide

/-- The value of an opcode word: the sum is far below 2^64. -/
theorem toNat_encodeHead (h : Head) :
    (encodeHead h).toNat = h.op.code + 100 * h.m1.digit + 1000 * h.m2.digit + 10000 * h.m3.digit := by
  have := h.op.code_lt
  have := h.m1.digit_le
  have := h.m2.digit_le
  have := h.m3.digit_le
  exact Nat.mod_eq_of_lt (by omega)

/-- A number of at most five decimal digits is the sum of its digits' weights (R100). -/
theorem eq_digit_sum_iff {n c d1 d2 d3 : Nat} (hc : c < 100) (h1 : d1 ≤ 2) (h2 : d2 ≤ 2) (h3 : d3 ≤ 2) :
    n = c + 100 * d1 + 1000 * d2 + 10000 * d3 ↔
      n < 100000 ∧ n % 100 = c ∧ digit 2 n = d1 ∧ digit 3 n = d2 ∧ digit 4 n = d3 := by
  simp only [digit]
  omega

/-- The decoder accepts exactly the encodings of the legal heads (R120). -/
theorem decodeHead_eq_ok_iff {w : Word} {h : Head} : decodeHead w = .ok h ↔ h.legal = true ∧ w = encodeHead h := by
  have hsum := eq_digit_sum_iff (n := w.toNat) h.op.code_lt h.m1.digit_le h.m2.digit_le h.m3.digit_le
  have hpos : w.toNat < 100000 → 0 ≤ w.toInt := fun hlt => by
    rw [BitVec.toInt_eq_toNat_of_lt (by omega)]; omega
  rw [decodeHead_eq_ok_iff_checks, Opcode.ofCode_eq_some_iff, decodeMode_eq_ok_iff, decodeMode_eq_ok_iff,
    decodeMode_eq_ok_iff, Head.legal_iff, ← BitVec.toNat_inj, toNat_encodeHead, hsum]
  tauto

theorem Head.instr_operands_length (h : Head) (raw : Nat → Word) :
    (h.instr raw).operands.length = h.op.arity ∧ (h.instr raw).length = h.op.arity + 1 := by
  obtain ⟨op, m1, m2, m3⟩ := h
  cases op <;> exact ⟨rfl, rfl⟩

/-- Settles O2: the decoder accepts exactly the encodings of the legal heads. -/
theorem opcodeWordRoundTrip : Obligations.OpcodeWordRoundTrip := by
  refine ⟨fun h hl => ⟨toNat_encodeHead h, decodeHead_eq_ok_iff.2 ⟨hl, rfl⟩, h.instr_operands_length⟩, fun w h hd => ?_⟩
  obtain ⟨hl, rfl⟩ := decodeHead_eq_ok_iff.1 hd
  exact ⟨hl, rfl⟩

/-! ### Instructions -/

theorem Operand.mode_ne_immediate {o : Operand} (h : o.writable = true) : o.mode ≠ .immediate := by
  intro hm
  simp [Operand.writable, hm] at h

/-- The head of an instruction that has an encoding is one of R119. -/
theorem Instr.head_legal {i : Instr} (h : i.wf = true) : i.head.legal = true := by
  cases i with
  | add a b c | multiply a b c | lessThan a b c | equals a b c =>
    have hc := Operand.mode_ne_immediate (o := c) h
    simp [Head.legal, Instr.head, Head.writeOk, Opcode.writePosition, Opcode.arity, Head.modeAt, hc]
  | input a =>
    have ha := Operand.mode_ne_immediate (o := a) h
    simp [Head.legal, Instr.head, Head.writeOk, Opcode.writePosition, Opcode.arity, Head.modeAt, ha]
  | output | jumpIfTrue | jumpIfFalse | adjustRelativeBase | halt => rfl

/-- The head of an instruction and its raw words are the instruction. -/
theorem Instr.head_instr (i : Instr) (w : Word) (rest : List Word) :
    i.head.instr (fun k => (w :: (i.operands.map Operand.raw ++ rest)).getD k 0#64) = i := by
  cases i <;> rfl

theorem Instr.operands_length (i : Instr) : i.operands.length = i.head.op.arity := by cases i <;> rfl

theorem decode_cons {w : Word} {rest : List Word} {h : Head} (hd : decodeHead w = .ok h)
    (hlen : h.op.arity ≤ rest.length) :
    decode (w :: rest) = .ok (h.instr (fun k => (w :: rest).getD k 0#64), rest.drop h.op.arity) := by
  simp [decode, hd, hlen.not_gt]

/-- What a list of words is where it decodes: an opcode word and at least its operands' words. -/
theorem decode_ok {ws rest : List Word} {i : Instr} (h : decode ws = .ok (i, rest)) :
    ∃ w tail hd, ws = w :: tail ∧ decodeHead w = .ok hd ∧ hd.op.arity ≤ tail.length ∧
      i = hd.instr (fun k => ws.getD k 0#64) ∧ rest = tail.drop hd.op.arity := by
  cases ws with
  | nil => cases h
  | cons w tail =>
    cases hw : decodeHead w with
    | error e => simp [decode, hw] at h
    | ok hd =>
      by_cases hlen : hd.op.arity ≤ tail.length
      · rw [decode_cons hw hlen] at h
        cases h
        exact ⟨w, tail, hd, rfl, hw, hlen, rfl, rfl⟩
      · simp [decode, hw, Nat.lt_of_not_le hlen] at h

/-- Settles O3: the opcode word decodes to the instruction's head, whose operands are the words that follow. -/
theorem encodedInstructionsDecode : Obligations.EncodedInstructionsDecode := by
  intro i rest hwf
  have hhead : decodeHead (encodeHead i.head) = .ok i.head := decodeHead_eq_ok_iff.2 ⟨Instr.head_legal hwf, rfl⟩
  have hlen : i.head.op.arity = (i.operands.map Operand.raw).length := by simp [i.operands_length]
  have hdecode := decode_cons (rest := i.operands.map Operand.raw ++ rest) hhead (by simp [hlen])
  rw [Instr.head_instr, hlen, List.drop_left] at hdecode
  exact hdecode

/-- An instruction read under a legal head has that head: absent operands are Absolute (R114). -/
theorem Head.instr_head {h : Head} (hl : h.legal = true) (raw : Nat → Word) : (h.instr raw).head = h := by
  obtain ⟨-, h1, h2, h3⟩ := h.legal_iff.1 hl
  obtain ⟨op, m1, m2, m3⟩ := h
  cases op <;> simp_all [Head.instr, Instr.head, Opcode.arity]

theorem Head.instr_operands_raw (h : Head) (raw : Nat → Word) :
    (h.instr raw).operands.map Operand.raw = (List.range h.op.arity).map (fun k => raw (k + 1)) := by
  obtain ⟨op, m1, m2, m3⟩ := h
  cases op <;> rfl

theorem map_range_getD (ws : List Word) {n : Nat} (h : n ≤ ws.length) :
    (List.range n).map (fun k => ws.getD k 0#64) = ws.take n := by
  refine List.ext_getElem (by simp [h]) fun k h1 h2 => ?_
  have hk : k < ws.length := by simp at h1; omega
  simp [List.getElem?_eq_getElem hk]

/-- Settles O4: the opcode word encodes the head it decodes to, and the raw words are read back in order. -/
theorem decodedWordsReencode : Obligations.DecodedWordsReencode := by
  intro ws rest i h
  obtain ⟨w, tail, hd, rfl, hw, hlen, rfl, rfl⟩ := decode_ok h
  obtain ⟨hl, rfl⟩ := decodeHead_eq_ok_iff.1 hw
  refine ⟨Machine.Head.instr_wf (hd.legal_iff.1 hl).1 _, ?_⟩
  rw [encode, Head.instr_head hl, Head.instr_operands_raw]
  simp only [List.getD_cons_succ, map_range_getD tail hlen, List.cons_append, List.take_append_drop]

/-! ### The table of R119 -/

def Opcode.all : List Opcode :=
  [.add, .multiply, .input, .output, .jumpIfTrue, .jumpIfFalse, .lessThan, .equals, .adjustRelativeBase, .halt]

def Mode.all : List Mode := [.absolute, .immediate, .relative]

theorem Opcode.mem_all (op : Opcode) : op ∈ Opcode.all := by cases op <;> decide

theorem Mode.mem_all (m : Mode) : m ∈ Mode.all := by cases m <;> decide

theorem legal_heads_in_table : ∀ op ∈ Opcode.all, ∀ m1 ∈ Mode.all, ∀ m2 ∈ Mode.all, ∀ m3 ∈ Mode.all,
    Head.legal ⟨op, m1, m2, m3⟩ = true →
      ∃ row ∈ legalWordTable, row.1 = op.code ∧ (encodeHead ⟨op, m1, m2, m3⟩).toNat ∈ row.2.2 := by decide

/-- A word that decodes stands in its opcode's row. -/
theorem decoded_word_in_table {w : Word} {h : Head} (hd : decodeHead w = .ok h) :
    ∃ row ∈ legalWordTable, row.1 = h.op.code ∧ w.toNat ∈ row.2.2 := by
  obtain ⟨hl, rfl⟩ := decodeHead_eq_ok_iff.1 hd
  exact legal_heads_in_table _ h.op.mem_all _ h.m1.mem_all _ h.m2.mem_all _ h.m3.mem_all hl

theorem table_words_decode : ∀ row ∈ legalWordTable, ∀ n ∈ row.2.2, (decodeHead (BitVec.ofNat 64 n)).isOk = true := by
  decide

theorem exists_of_isOk {ε α : Type} {x : Except ε α} (h : x.isOk = true) : ∃ a, x = .ok a := by
  cases x with
  | error e => cases h
  | ok a => exact ⟨a, rfl⟩

/-- Settles O5: each of the finitely many legal heads is checked to stand in the table, and each word of the table to
decode. -/
theorem legalOpcodeWordsAreTheTable : Obligations.LegalOpcodeWordsAreTheTable := by
  refine ⟨fun w => ⟨fun ⟨h, hd⟩ => ?inTable, fun ⟨row, hrow, n, hn, hw⟩ => ?decodes⟩,
    fun w h hd => decoded_word_in_table hd, by decide, by decide⟩
  case inTable =>
    obtain ⟨row, hrow, -, hw⟩ := decoded_word_in_table hd
    exact ⟨row, hrow, w.toNat, hw, by simp⟩
  case decodes => exact exists_of_isOk (hw ▸ table_words_decode row hrow n hn)

/-- Settles O1: the decoder evaluated on one list of words per opcode. -/
theorem sampleWordsDecode : Obligations.SampleWordsDecode := by
  unfold Obligations.SampleWordsDecode
  decide

namespace Machine

/-! ### The step and the words at `pc` -/

theorem Memory.words_getD (m : Memory) (a : Nat) {n k : Nat} (h : k < n) :
    (m.words a n).getD k 0#64 = m.read (a + k) := by
  induction n generalizing a k with
  | zero => omega
  | succ n ih =>
    cases k with
    | zero => rfl
    | succ k =>
      have hk := ih (a + 1) (k := k) (by omega)
      simpa [Memory.words, Nat.add_assoc, Nat.add_comm 1] using hk

theorem Memory.words_add (m : Memory) (a n k : Nat) : m.words a (n + k) = m.words a n ++ m.words (a + n) k := by
  induction n generalizing a with
  | zero => simp [Memory.words]
  | succ n ih =>
    rw [Nat.succ_add, Memory.words, ih, Memory.words, List.cons_append, Nat.add_assoc, Nat.add_comm 1]

/-- Only the words of the operands the opcode has matter. -/
theorem Head.instr_congr {h : Head} {raw raw' : Nat → Word} (heq : ∀ k, k ≤ h.op.arity → raw k = raw' k) :
    h.instr raw = h.instr raw' := by
  obtain ⟨op, m1, m2, m3⟩ := h
  cases op <;> simp_all [Head.instr, Opcode.arity]

/-- The fetch is the decoder on the words at `pc`, with room below the top (R115, R116). -/
theorem fetch_of_decode {s : State} {i : Instr} {rest : List Word} (h0 : 0 ≤ s.pc.toInt)
    (htop : s.pc.toInt + i.length ≤ maxAddr) (h : decode (s.mem.words s.pc.toNat 4) = .ok (i, rest)) :
    fetch s = .ok i := by
  obtain ⟨w, tail, hd, hwords, hw, -, rfl, -⟩ := decode_ok h
  have hword : w = s.mem.read s.pc.toNat := (List.cons.inj hwords).1.symm
  have hlen : s.pc.toInt + hd.op.length ≤ maxAddr := by simpa [Instr.length] using htop
  have hinstr : hd.instr (fun k => (s.mem.words s.pc.toNat 4).getD k 0#64) =
      hd.instr (fun k => s.mem.read (s.pc.toNat + k)) := by
    have h4 : hd.op.arity + 1 ≤ 4 := (Laws.EncodedLength.opcode_length_bounds hd.op).2
    exact Head.instr_congr fun k hk => Memory.words_getD _ _ (by omega)
  rw [hinstr, fetch, if_pos ((inRange_toInt _).2 h0), ← hword, hw]
  exact if_pos hlen

/-- Settles O8: the fetch is the decoder on the words at `pc`. -/
theorem stepRunsDecodedInstruction : Obligations.StepRunsDecodedInstruction :=
  fun _ _ _ hs h0 htop hdecode => step_exec hs (fetch_of_decode h0 htop hdecode)

/-- Settles O9: an encoding at `pc` decodes, whatever words follow it (`encodedInstructionsDecode`). -/
theorem stepRunsEncodedInstruction : Obligations.StepRunsEncodedInstruction := by
  intro s i hs h0 htop hwf hwords
  obtain ⟨n, hn⟩ := Nat.exists_eq_add_of_le (Laws.EncodedLength.opcode_length_bounds i.opcode).2
  have hdecode : decode (s.mem.words s.pc.toNat 4) = .ok (i, s.mem.words (s.pc.toNat + i.length) n) := by
    have h4 : s.mem.words s.pc.toNat 4 = encode i ++ s.mem.words (s.pc.toNat + i.length) n := by
      rw [hn, Memory.words_add, ← hwords]
      rfl
    rw [h4]
    exact encodedInstructionsDecode i _ hwf
  exact stepRunsDecodedInstruction s i _ hs h0 htop hdecode

end Machine

end Sys2Proof
end

section
/-! Operands and the ALU (spec 30_encoding.md section 3, 41_arithmetic.md sections 1 and 3): what each mode denotes, the
first operand address out of range, the table of R165, and sources that are also the write operand. -/

namespace Sys2Proof.Machine

/-! ### Resolution -/

section
variable {rb : Word} {o : Operand} {ea : Int} (hea : effectiveAddress rb o = some ea)
include hea

theorem resolve_of_inRange (hr : inRange ea = true) :
    resolve rb o = .ok (.mem ea.toNat) ∧ resolveTarget rb o = .ok ea.toNat := by
  simp [resolve, resolveTarget, hea, hr]

theorem resolve_of_not_inRange (hr : ¬ inRange ea = true) :
    resolve rb o = .error (.address ea) ∧ resolveTarget rb o = .error (.address ea) := by
  simp [resolve, resolveTarget, hea, hr]

end

/-- Settles O10: an address is exact, and a word used as an address is out of range only where it is negative. -/
theorem operandModesResolve : Obligations.OperandModesResolve := by
  refine fun s raw => ⟨fun h0 => ?absolute, fun hneg => ?negative, ⟨rfl, rfl, rfl⟩, fun h0 htop => ?relative,
    fun hout => ?outside⟩
  case absolute =>
    obtain ⟨hres, htarget⟩ := resolve_of_inRange (rb := s.rb) (o := .abs raw) (ea := raw.toInt) rfl
      ((inRange_toInt raw).2 h0)
    have hnat : raw.toInt.toNat = raw.toNat := by have := toNat_of_nonneg raw h0; omega
    rw [hnat] at hres htarget
    exact ⟨hres, rfl, htarget⟩
  case negative => exact resolve_of_not_inRange rfl (by rw [inRange_toInt]; omega)
  case relative => exact resolve_of_inRange rfl ((inRange_iff _).2 ⟨h0, htop⟩)
  case outside => exact resolve_of_not_inRange rfl (by rw [inRange_iff]; omega)

/-! ### The first operand address out of range -/

/-- The operands are looked at in order: the first that does not resolve decides (R115). -/
theorem firstAddressFault_cons {rb : Word} {o : Operand} {os : List Operand} {e : Trap}
    (h : firstAddressFault rb (o :: os) = some e) :
    resolve rb o = .error e ∨ ((∃ x, resolve rb o = .ok x) ∧ firstAddressFault rb os = some e) := by
  simp only [firstAddressFault] at h
  cases hea : effectiveAddress rb o with
  | none => exact .inr ⟨⟨.imm o.raw, by simp [resolve, hea]⟩, by simpa [hea] using h⟩
  | some ea =>
    by_cases hr : inRange ea = true
    · exact .inr ⟨⟨_, (resolve_of_inRange hea hr).1⟩, by simpa [hea, hr] using h⟩
    · obtain rfl : Trap.address ea = e := by simpa [hea, hr] using h
      exact .inl (resolve_of_not_inRange hea hr).1

theorem resolveTarget_of_resolve_error {rb : Word} {o : Operand} {e : Trap} (h : resolve rb o = .error e) :
    resolveTarget rb o = .error e := by
  obtain ⟨ea, hea, hr, rfl⟩ := resolve_error h
  exact (resolve_of_not_inRange hea (by simp [hr])).2

theorem firstAddressFault_singleton {rb : Word} {o : Operand} {e : Trap} (h : firstAddressFault rb [o] = some e) :
    resolve rb o = .error e := by
  rcases firstAddressFault_cons h with ho | ⟨-, hnil⟩
  · exact ho
  · cases hnil

theorem binary_of_addressFault {s : State} {op : AluOp} {a b c : Operand} {e : Trap} (hw : c.writable = true)
    (h : firstAddressFault s.rb [a, b, c] = some e) : s.binary op a b c = .next (s.raise e) := by
  rcases firstAddressFault_cons h with ha | ⟨⟨x, ha⟩, h⟩
  · simp [State.binary, State.commit, requireWritable_ok c hw, ha, bind, Except.bind]
  rcases firstAddressFault_cons h with hb | ⟨⟨y, hb⟩, h⟩
  · simp [State.binary, State.commit, requireWritable_ok c hw, ha, hb, bind, Except.bind]
  have hc := resolveTarget_of_resolve_error (firstAddressFault_singleton h)
  simp [State.binary, State.commit, requireWritable_ok c hw, ha, hb, hc, bind, Except.bind]

theorem jumpOn_of_addressFault {s : State} {z : Bool} {a b : Operand} {e : Trap}
    (h : firstAddressFault s.rb [a, b] = some e) : s.jumpOn z a b = .next (s.raise e) := by
  rcases firstAddressFault_cons h with ha | ⟨⟨x, ha⟩, h⟩
  · simp [State.jumpOn, State.commit, ha, bind, Except.bind]
  · simp [State.jumpOn, State.commit, ha, firstAddressFault_singleton h, bind, Except.bind]

/-- Settles O11: the operands are resolved in order, before anything an instruction does with them. -/
theorem firstBadOperandAddressFaults : Obligations.FirstBadOperandAddressFaults := by
  intro s i e hwf h
  cases i with
  | add a b c => exact binary_of_addressFault (op := .add) hwf h
  | multiply a b c => exact binary_of_addressFault (op := .mul) hwf h
  | lessThan a b c => exact binary_of_addressFault (op := .lt) hwf h
  | equals a b c => exact binary_of_addressFault (op := .eq) hwf h
  | jumpIfTrue a b => exact jumpOn_of_addressFault (z := false) h
  | jumpIfFalse a b => exact jumpOn_of_addressFault (z := true) h
  | input a => exact execInput_of_target_error (resolveTarget_of_resolve_error (firstAddressFault_singleton h))
  | output a => simp [exec, execOutput, firstAddressFault_singleton h]
  | adjustRelativeBase a =>
    simp [exec, execAdjustRelativeBase, State.commit, firstAddressFault_singleton h, bind, Except.bind]
  | halt => cases h

/-! ### The ALU -/

theorem aluCorners_exact : ∀ row ∈ aluCorners, (wrap64 row.a).toInt = row.a ∧ (wrap64 row.b).toInt = row.b ∧
    row.exact = (if row.op = .add then row.a + row.b else row.a * row.b) := by decide

theorem aluCorners_result : ∀ row ∈ aluCorners,
    alu row.op (wrap64 row.a) (wrap64 row.b) = (wrap64 row.result, row.ovf) ∧
      (wrap64 row.result).toInt = row.result := by decide

/-- Settles O12: the ALU is evaluated on each row, and the policy looks at the row's `ovf` alone. -/
theorem aluCornerTable : Obligations.AluCornerTable := by
  intro row hrow
  obtain ⟨ha, hb, hexact⟩ := aluCorners_exact row hrow
  obtain ⟨halu, hresult⟩ := aluCorners_result row hrow
  refine ⟨ha, hb, hexact, halu, hresult, ?_, fun hovf => ?_, fun hovf => ?_⟩
  · rw [aluUnder_wrap, halu]
  · simp [aluUnder_eq, halu, hovf]
  · simp [aluUnder_eq, halu, hovf]

/-- Settles O18: the sources are the words of the memory before the step, and the write is read back. -/
theorem aliasedSourcesAreReadFirst : Obligations.AliasedSourcesAreReadFirst := by
  intro s o p d y hwf htarget hp
  have ho : resolve s.rb o = .ok (.mem d) := resolve_of_resolveTarget htarget
  have hread := fun v => Memory.read_write_self ((Memory.wf_iff _).1 hwf).1 d v
  refine ⟨fun hwrap => ?doubles, ?compares⟩
  case doubles =>
    have hexec := ((addStoresSumOrOverflows s o o o).2 _ _ _ ho ho htarget).1 (.inl hwrap)
    exact ⟨_, hexec, by rw [hread, Int.two_mul]; rfl⟩
  case compares =>
    exact ⟨_, (lessThanStoresSignedComparison s o p o).2 _ _ _ ho hp htarget, hread _⟩

end Sys2Proof.Machine
end

section
/-! What the execution of an instruction can answer, said once for all ten, and the rules of the whole machine that follow
from it: the frames, the one store, `rb`, the queues, `pc`, the steps not taken and the faults. -/

namespace Sys2Proof.Machine

/-! ### What execution can answer -/

/-- The effect of `i` where it neither faults nor blocks. -/
def Completes (i : Instr) (s t : State) : Prop :=
  match i with
  | .add _ _ c | .multiply _ _ c | .lessThan _ _ c | .equals _ _ c =>
    ∃ d r, resolveTarget s.rb c = .ok d ∧ t = (s.store d r).advance 4
  | .input a => ∃ d, resolveTarget s.rb a = .ok d ∧ t = s.beginWait d
  | .output a =>
    ∃ x, resolve s.rb a = .ok x ∧ s.outDisc = false ∧ s.outFull = false ∧ t = (s.pushOut (s.value x)).advance 2
  | .jumpIfTrue _ b | .jumpIfFalse _ b => t = s.advance 3 ∨ ∃ y, resolve s.rb b = .ok y ∧ t = s.jump (s.value y)
  | .adjustRelativeBase _ => ∃ r, t = (s.setRb r).advance 2
  | .halt => t = s.halt

/-- What has to hold where the execution of `i` raises the trap (60_exceptions.md R223 to R227). -/
def RaiseCondition (i : Instr) (s : State) : Trap → Prop
  | .head e => e = .writeTarget ∧ i.wf = false
  | .address ea => BadAddress s i.operands ea
  | .inputDisconnected => False
  | .outputDisconnected => ∃ a, i = .output a
  | .overflow => s.params.ovfPolicy = .fault ∧ mayRaise i .overflow = true

theorem binary_answers {s t : State} {i : Instr} {op : AluOp} {a b c : Operand} (hops : i.operands = [a, b, c])
    (hwf : i.wf = c.writable) (hovf : ∀ x y, (alu op x y).2 = true → mayRaise i .overflow = true)
    (h : s.binary op a b c = .next t) :
    (∃ d r, resolveTarget s.rb c = .ok d ∧ t = (s.store d r).advance 4) ∨
      ∃ e, t = s.raise e ∧ RaiseCondition i s e := by
  obtain ⟨x, y, d, r, -, -, hd, -, rfl⟩ | ⟨e, rfl, ⟨rfl, hw⟩ | ⟨ea, rfl, hbad⟩ | ⟨rfl, hp, x, y, hxy⟩⟩ := binary_cases h
  · exact .inl ⟨d, r, hd, rfl⟩
  · exact .inr ⟨_, rfl, rfl, hwf.trans hw⟩
  · exact .inr ⟨_, rfl, by rwa [RaiseCondition, hops]⟩
  · exact .inr ⟨_, rfl, hp, hovf x y hxy⟩

theorem jumpOn_answers {s t : State} {i : Instr} {z : Bool} {a b : Operand} (hops : i.operands = [a, b])
    (h : s.jumpOn z a b = .next t) :
    (t = s.advance 3 ∨ ∃ y, resolve s.rb b = .ok y ∧ t = s.jump (s.value y)) ∨
      ∃ e, t = s.raise e ∧ RaiseCondition i s e := by
  obtain ⟨x, y, -, hb, rfl⟩ | ⟨ea, rfl, hbad⟩ := jumpOn_cases h
  · split
    · exact .inl (.inr ⟨y, hb, rfl⟩)
    · exact .inl (.inl rfl)
  · exact .inr ⟨_, rfl, by rwa [RaiseCondition, hops]⟩

/-- Every next state of an instruction is its effect or a raise. -/
theorem exec_answers {i : Instr} {s t : State} (h : exec i s = .next t) :
    Completes i s t ∨ ∃ e, t = s.raise e ∧ RaiseCondition i s e := by
  cases i with
  | add a b c => exact binary_answers (op := .add) rfl rfl (fun _ _ _ => rfl) h
  | multiply a b c => exact binary_answers (op := .mul) rfl rfl (fun _ _ _ => rfl) h
  | lessThan a b c => exact binary_answers (op := .lt) rfl rfl nofun h
  | equals a b c => exact binary_answers (op := .eq) rfl rfl nofun h
  | jumpIfTrue a b => exact jumpOn_answers (z := false) rfl h
  | jumpIfFalse a b => exact jumpOn_answers (z := true) rfl h
  | input a =>
    obtain hd | ⟨rfl, hw⟩ | ⟨ea, rfl, hbad⟩ := execInput_cases h
    · exact .inl hd
    · exact .inr ⟨_, rfl, rfl, hw⟩
    · exact .inr ⟨_, rfl, hbad⟩
  | output a =>
    obtain hx | ⟨x, -, -, rfl⟩ | ⟨ea, -, rfl, hbad⟩ := execOutput_cases h
    · exact .inl hx
    · exact .inr ⟨_, rfl, a, rfl⟩
    · exact .inr ⟨_, rfl, hbad⟩
  | adjustRelativeBase a =>
    obtain ⟨x, r, -, -, rfl⟩ | ⟨rfl, hp⟩ | ⟨ea, rfl, hbad⟩ := execAdjustRelativeBase_cases h
    · exact .inl ⟨r, rfl⟩
    · exact .inr ⟨_, rfl, hp, rfl⟩
    · exact .inr ⟨_, rfl, hbad⟩
  | halt => exact .inl (Host.Outcome.next.inj h).symm

/-! ### Frames -/

theorem Completes.read_mem {i : Instr} {s t : State} (h : Completes i s t) {x : Nat}
    (hx : execStoreAddress i s ≠ some x) : t.mem.read x = s.mem.read x := by
  cases i with
  | add | multiply | lessThan | equals =>
    obtain ⟨d, r, hd, rfl⟩ := h
    refine Memory.read_write_ne s.mem d x r fun hxd => hx ?_
    simp [execStoreAddress, hd, hxd]
  | input => obtain ⟨d, -, rfl⟩ := h; rfl
  | output => obtain ⟨x, -, -, -, rfl⟩ := h; rfl
  | jumpIfTrue | jumpIfFalse => obtain rfl | ⟨y, -, rfl⟩ := h <;> rfl
  | adjustRelativeBase => obtain ⟨r, rfl⟩ := h; rfl
  | halt => obtain rfl := h; rfl

/-- An instruction stores to no cell but its write operand's (20_memory.md R77). -/
theorem exec_read_mem {i : Instr} {s t : State} (h : exec i s = .next t) {x : Nat}
    (hx : execStoreAddress i s ≠ some x) : t.mem.read x = s.mem.read x := by
  obtain hc | ⟨e, rfl, -⟩ := exec_answers h
  · exact hc.read_mem hx
  · rfl

/-- Settles O29: the four have one effect, a store and `pc`; a fault is a raise. -/
theorem arithmeticFrame : Obligations.ArithmeticFrame := by
  intro s t i a b c hi h
  have heffect : Completes i s t → ∃ d r, t = (s.store d r).advance 4 := by
    rcases hi with rfl | rfl | rfl | rfl <;> exact fun ⟨d, r, _, ht⟩ => ⟨d, r, ht⟩
  refine ⟨fun x hx => exec_read_mem h hx, ?_⟩
  obtain hc | ⟨e, rfl, -⟩ := exec_answers h
  · obtain ⟨d, r, rfl⟩ := heffect hc
    exact ⟨rfl, rfl, rfl, rfl, rfl, rfl, rfl, .inr ⟨rfl, rfl, rfl, rfl, rfl, rfl⟩⟩
  · exact ⟨rfl, rfl, rfl, rfl, rfl, rfl, rfl, .inl ⟨e, rfl⟩⟩

/-- Settles O30: each of the six writes its own fields, and none of them memory. -/
theorem nonStoringFrame : Obligations.NonStoringFrame := by
  intro s t i a b hi h
  have hstore : execStoreAddress i s = none := by rcases hi with rfl | rfl | rfl | rfl | rfl | rfl <;> rfl
  refine ⟨fun x => exec_read_mem h (by simp [hstore]), ?_⟩
  obtain hc | ⟨e, rfl, -⟩ := exec_answers h
  · rcases hi with rfl | rfl | rfl | rfl | rfl | rfl
    · obtain ⟨d, -, rfl⟩ := hc; simp
    · obtain ⟨x, -, -, -, rfl⟩ := hc; simp
    · obtain rfl | ⟨y, -, rfl⟩ := hc <;> simp
    · obtain rfl | ⟨y, -, rfl⟩ := hc <;> simp
    · obtain ⟨r, rfl⟩ := hc; simp
    · obtain rfl := hc; simp
  · exact ⟨rfl, rfl, rfl, rfl, fun _ => rfl, fun _ => rfl, fun _ => rfl, fun _ => rfl, .inl ⟨e, rfl⟩⟩

/-! ### Rules of every step -/

/-- Settles O31: the store is the instruction's own, or the completing Input's to its latch. -/
theorem stepStoresOnlyToItsTarget : Obligations.StepStoresOnlyToItsTarget := by
  intro s t h x hx
  obtain ⟨-, e, -, rfl⟩ | ⟨hs, i, hf, hexec⟩ | ⟨hs, hc⟩ := step_cases h
  · rfl
  · exact exec_read_mem hexec (by simpa [stepStoreAddress, hs, hf] using hx)
  · obtain ⟨v, q, hq, rfl⟩ | ⟨-, -, rfl⟩ := completeInput_cases hc
    · exact Memory.read_write_ne s.mem s.inTarget x v fun hxt => hx (by simp [stepStoreAddress, hs, hq, hxt])
    · rfl

theorem exec_rb {i : Instr} {s t : State} (hi : ∀ a, i ≠ .adjustRelativeBase a) (h : exec i s = .next t) :
    t.rb = s.rb := by
  obtain hc | ⟨e, rfl, -⟩ := exec_answers h
  · cases i with
    | add | multiply | lessThan | equals => obtain ⟨d, r, -, rfl⟩ := hc; rfl
    | input => obtain ⟨d, -, rfl⟩ := hc; rfl
    | output => obtain ⟨x, -, -, -, rfl⟩ := hc; rfl
    | jumpIfTrue | jumpIfFalse => obtain rfl | ⟨y, -, rfl⟩ := hc <;> rfl
    | adjustRelativeBase a => exact absurd rfl (hi a)
    | halt => obtain rfl := hc; rfl
  · rfl

/-- Settles O32: neither a raise nor the wait writes `rb`, and of the instructions only AdjustRelativeBase does. -/
theorem onlyAdjustRelativeBaseWritesRb : Obligations.OnlyAdjustRelativeBaseWritesRb := by
  intro s t h hrb
  obtain ⟨-, e, -, rfl⟩ | ⟨hs, i, hf, hexec⟩ | ⟨-, hc⟩ := step_cases h
  · exact absurd rfl hrb
  · by_contra hnot
    exact hrb (exec_rb (fun a hi => hnot ⟨hs, a, hi ▸ hf⟩) hexec)
  · obtain ⟨v, q, -, rfl⟩ | ⟨-, -, rfl⟩ := completeInput_cases hc <;> exact absurd rfl hrb

theorem exec_keeps_host_fields {i : Instr} {s t : State} (h : exec i s = .next t) :
    t.inClosed = s.inClosed ∧ t.outDisc = s.outDisc ∧ t.params = s.params := by
  obtain hc | ⟨e, rfl, -⟩ := exec_answers h
  · cases i with
    | add | multiply | lessThan | equals => obtain ⟨d, r, -, rfl⟩ := hc; exact ⟨rfl, rfl, rfl⟩
    | input => obtain ⟨d, -, rfl⟩ := hc; exact ⟨rfl, rfl, rfl⟩
    | output => obtain ⟨x, -, -, -, rfl⟩ := hc; exact ⟨rfl, rfl, rfl⟩
    | jumpIfTrue | jumpIfFalse => obtain rfl | ⟨y, -, rfl⟩ := hc <;> exact ⟨rfl, rfl, rfl⟩
    | adjustRelativeBase => obtain ⟨r, rfl⟩ := hc; exact ⟨rfl, rfl, rfl⟩
    | halt => obtain rfl := hc; exact ⟨rfl, rfl, rfl⟩
  · exact ⟨rfl, rfl, rfl⟩

theorem step_keeps_host_fields {s t : State} (h : step s = .next t) :
    t.inClosed = s.inClosed ∧ t.outDisc = s.outDisc ∧ t.params = s.params := by
  obtain ⟨-, e, -, rfl⟩ | ⟨-, i, -, hexec⟩ | ⟨-, hc⟩ := step_cases h
  · exact ⟨rfl, rfl, rfl⟩
  · exact exec_keeps_host_fields hexec
  · obtain ⟨v, q, -, rfl⟩ | ⟨-, -, rfl⟩ := completeInput_cases hc <;> exact ⟨rfl, rfl, rfl⟩

theorem step_inQ {s t : State} (h : step s = .next t) :
    t.inQ = s.inQ ∨ (s.state = .waitingForInput ∧ ∃ v, s.inQ = v :: t.inQ) := by
  obtain ⟨-, e, -, rfl⟩ | ⟨-, i, -, hexec⟩ | ⟨hs, hc⟩ := step_cases h
  · exact .inl rfl
  · by_cases hi : ∀ a, i ≠ .output a
    · exact .inl (exec_keeps_queues hi hexec).1
    · obtain ⟨a, rfl⟩ := by simpa using hi
      obtain ⟨x, -, -, -, rfl⟩ | ⟨e, rfl, -⟩ := exec_answers hexec <;> exact .inl rfl
  · obtain ⟨v, q, hq, rfl⟩ | ⟨-, -, rfl⟩ := completeInput_cases hc
    · exact .inr ⟨hs, v, hq⟩
    · exact .inl rfl

theorem step_outQ {s t : State} (h : step s = .next t) :
    t.outQ = s.outQ ∨ (s.state = .running ∧ ∃ a x, fetch s = .ok (.output a) ∧ resolve s.rb a = .ok x ∧
      t.outQ = s.outQ ++ [s.value x]) := by
  obtain ⟨-, e, -, rfl⟩ | ⟨hs, i, hf, hexec⟩ | ⟨-, hc⟩ := step_cases h
  · exact .inl rfl
  · by_cases hi : ∀ a, i ≠ .output a
    · exact .inl (exec_keeps_queues hi hexec).2
    · obtain ⟨a, rfl⟩ := by simpa using hi
      obtain ⟨x, hx, -, -, rfl⟩ | ⟨e, rfl, -⟩ := exec_answers hexec
      · exact .inr ⟨hs, a, x, hf, hx, rfl⟩
      · exact .inl rfl
  · obtain ⟨v, q, -, rfl⟩ | ⟨-, -, rfl⟩ := completeInput_cases hc <;> exact .inl rfl

/-- Settles O33, one field after the other. -/
theorem stepsTouchQueuesOnlyByInputAndOutput : Obligations.StepsTouchQueuesOnlyByInputAndOutput := by
  intro s t h
  obtain ⟨hclosed, hdisc, hparams⟩ := step_keeps_host_fields h
  exact ⟨hclosed, hdisc, hparams, step_inQ h, step_outQ h⟩

end Sys2Proof.Machine
end

section
/-! Where `pc` goes, where the engine has no step and by which name, which faults each instruction can raise, and the jump
to itself (spec 40_execution_cycle.md R145, R146, 43_control.md R204, 60_exceptions.md section 1). -/

namespace Sys2Proof.Machine

/-! ### `pc` -/

/-- A fetched instruction lies wholly inside the address space (R116), in any state of the engine. -/
theorem fetch_bounds {s : State} {i : Instr} (h : fetch s = .ok i) :
    0 ≤ s.pc.toInt ∧ s.pc.toInt + i.length ≤ maxAddr := by
  obtain ⟨hd, hr, -, htop, rfl⟩ := fetch_ok h
  exact ⟨(inRange_toInt _).1 hr, by simpa [Instr.length] using htop⟩

/-- Moving on by a length that ends in the address space adds it exactly. -/
theorem toInt_add_ofNat {w : Word} {n : Nat} (h0 : 0 ≤ w.toInt) (htop : w.toInt + n ≤ maxAddr) :
    (w + BitVec.ofNat 64 n).toInt = w.toInt + n := by
  rw [maxAddr] at htop
  rw [BitVec.toInt_add, BitVec.toInt_ofNat', Int.add_bmod_bmod]
  exact Int.bmod_eq_of_le (by omega) (by omega)

/-- `pc` moves past the fetched instruction without wrapping (R145). -/
theorem toInt_pc_advance {s : State} {i : Instr} (hf : fetch s = .ok i) {n : Nat} (hn : i.length = n) :
    (s.pc + BitVec.ofNat 64 n).toInt = s.pc.toInt + n ∧ (s.pc + BitVec.ofNat 64 n).toInt ≤ maxAddr := by
  obtain ⟨h0, htop⟩ := fetch_bounds hf
  rw [hn] at htop
  rw [toInt_add_ofNat h0 htop]
  exact ⟨rfl, htop⟩

theorem completes_of_not_faulted {i : Instr} {s t : State} (h : exec i s = .next t) (ht : t.state ≠ .faulted) :
    Completes i s t := by
  obtain hc | ⟨e, rfl, -⟩ := exec_answers h
  · exact hc
  · exact absurd rfl ht

theorem pc_after_jump {i : Instr} {s t : State} {a b : Operand} (hi : i = .jumpIfTrue a b ∨ i = .jumpIfFalse a b)
    (hf : fetch s = .ok i) (h : Completes i s t) :
    (t.pc.toInt = s.pc.toInt + 3 ∧ t.pc.toInt ≤ maxAddr) ∨ ∃ y, resolve s.rb b = .ok y ∧ t.pc = s.value y := by
  have hlen : i.length = 3 := by rcases hi with rfl | rfl <;> rfl
  have heffect : t = s.advance 3 ∨ ∃ y, resolve s.rb b = .ok y ∧ t = s.jump (s.value y) := by
    rcases hi with rfl | rfl <;> exact h
  obtain rfl | ⟨y, hy, rfl⟩ := heffect
  · exact .inl (toInt_pc_advance hf hlen)
  · exact .inr ⟨y, hy, rfl⟩

/-- The instructions that move on by their length: all but Halt, Input and the jumps. -/
theorem pc_after_sequential {i : Instr} {s t : State} (hhalt : i ≠ .halt) (hinput : ∀ a, i ≠ .input a)
    (htrue : ∀ a b, i ≠ .jumpIfTrue a b) (hfalse : ∀ a b, i ≠ .jumpIfFalse a b) (h : Completes i s t) :
    t.pc = s.pc + BitVec.ofNat 64 i.length := by
  cases i with
  | add | multiply | lessThan | equals => obtain ⟨d, r, -, rfl⟩ := h; rfl
  | output => obtain ⟨x, -, -, -, rfl⟩ := h; rfl
  | adjustRelativeBase => obtain ⟨r, rfl⟩ := h; rfl
  | input a => exact absurd rfl (hinput a)
  | jumpIfTrue a b => exact absurd rfl (htrue a b)
  | jumpIfFalse a b => exact absurd rfl (hfalse a b)
  | halt => exact absurd rfl hhalt

/-- Settles O34: `pc` after each effect, where the fetch has left room for the instruction. -/
theorem pcMovesByLengthOrJump : Obligations.PcMovesByLengthOrJump := by
  refine ⟨fun s t i hs hf h ht => ?running, fun s t hinv hs h ht => ?waiting⟩
  case running =>
    have hc := completes_of_not_faulted h ht
    refine ⟨?_, ?_, fun a b hi => pc_after_jump hi hf hc, fun hhalt hinput htrue hfalse => ?_⟩
    · rintro rfl
      obtain rfl := hc
      rfl
    · rintro a rfl
      obtain ⟨d, -, rfl⟩ := hc
      rfl
    · rw [pc_after_sequential hhalt hinput htrue hfalse hc]
      exact toInt_pc_advance hf rfl
  case waiting =>
    obtain ⟨a, hf, -⟩ := hinv.waitingOnInput hs
    obtain ⟨v, q, -, rfl⟩ | ⟨-, -, rfl⟩ := completeInput_cases (step_waiting hs ▸ h)
    · exact toInt_pc_advance hf rfl
    · exact absurd rfl ht

/-! ### Steps not taken -/

/-- Where the engine has no step, and the name of each place (R146, log 3). -/
def NoStep (s : State) : Fault → Prop
  | .engineHalted => s.state = .halted
  | .engineFaulted => s.state = .faulted
  | .inputBlocked => s.InputBlocked
  | .outputBlocked => s.OutputBlocked

theorem step_of_noStep {s : State} {f : Fault} (h : NoStep s f) : step s = .fault f := by
  cases f with
  | engineHalted => simp [step, show s.state = .halted from h]
  | engineFaulted => simp [step, show s.state = .faulted from h]
  | inputBlocked => exact step_of_inputBlocked h
  | outputBlocked => exact step_of_outputBlocked h

/-- An engine has a step, or there is exactly one name for why not. -/
theorem step_next_or_noStep (s : State) : (∃ t, step s = .next t) ∨ ∃ f, NoStep s f ∧ step s = .fault f := by
  have hlive (h : s.state = .running ∨ s.state = .waitingForInput) :
      (∃ t, step s = .next t) ∨ ∃ f, NoStep s f ∧ step s = .fault f := by
    rcases step_next_or_blocked h with hnext | hin | hout
    · exact .inl hnext
    · exact .inr ⟨.inputBlocked, hin, step_of_inputBlocked hin⟩
    · exact .inr ⟨.outputBlocked, hout, step_of_outputBlocked hout⟩
  cases hs : s.state with
  | running => exact hlive (.inl hs)
  | waitingForInput => exact hlive (.inr hs)
  | halted => exact .inr ⟨.engineHalted, hs, step_of_noStep (f := .engineHalted) hs⟩
  | faulted => exact .inr ⟨.engineFaulted, hs, step_of_noStep (f := .engineFaulted) hs⟩

theorem noStep_of_step_fault {s : State} {f : Fault} (h : step s = .fault f) : NoStep s f := by
  obtain ⟨t, ht⟩ | ⟨g, hg, hstep⟩ := step_next_or_noStep s
  · cases ht.symm.trans h
  · cases hstep.symm.trans h
    exact hg

/-- No step is refused (R147). -/
theorem step_not_refused (s : State) (r : Refusal) : step s ≠ .refused r := by
  obtain ⟨t, ht⟩ | ⟨f, -, hf⟩ := step_next_or_noStep s
  · simp [ht]
  · simp [hf]

/-- Settles O36: each place without a step answers its own name, and a step with a name is at that place. -/
theorem stepsNotTakenAreAnsweredByName : Obligations.StepsNotTakenAreAnsweredByName := by
  refine fun s => ⟨fun h => step_of_noStep (f := .engineHalted) h, fun h => step_of_noStep (f := .engineFaulted) h,
    fun hs hq hc => step_of_inputBlocked ⟨hs, hq, hc⟩, fun a x n hx hd hn hlen => ?outputBlocks,
    noStep_of_step_fault, noStep_of_step_fault, noStep_of_step_fault, fun h => ?outputBlocked, step_not_refused s⟩
  case outputBlocks =>
    have hfull : s.outFull = true := s.outFull_iff.2 ⟨n, hn, hlen.ge⟩
    exact ⟨execOutput_of_full hx hd hfull, fun hs hf => step_of_outputBlocked ⟨hs, hd, hfull, a, x, hf, hx⟩⟩
  case outputBlocked =>
    obtain ⟨hs, hd, hfull, hfetch⟩ := noStep_of_step_fault h
    exact ⟨hs, hd, s.outFull_iff.1 hfull, hfetch⟩

/-! ### Faults -/

/-- Settles O40. -/
theorem faultCodes : Obligations.FaultCodes :=
  ⟨rfl, rfl, rfl, rfl, rfl, rfl, rfl, rfl, rfl, fun c => by cases c <;> decide⟩

theorem fetch_error_code {s : State} {e : Trap} (h : fetch s = .error e) : e.cause.code ∈ [1, 2, 3, 4, 5] := by
  obtain ⟨-, rfl⟩ | ⟨f, -, -, rfl⟩ | ⟨hd, -, -, -, rfl⟩ := fetch_error h
  · simp [Trap.cause, FaultCause.code]
  · cases f <;> decide
  · simp [Trap.cause, FaultCause.code]

/-- An instruction with an operand can raise ADDRESS. -/
theorem mayRaise_address {i : Instr} {o : Operand} (ho : o ∈ i.operands) : mayRaise i .address = true := by
  cases i with
  | halt => cases ho
  | _ => rfl

/-- A decoded instruction raises in execution only the causes of its row (60_exceptions.md R227). -/
theorem RaiseCondition.mayRaise {i : Instr} {s : State} {e : Trap} (hwf : i.wf = true) (h : RaiseCondition i s e) :
    mayRaise i e.cause = true ∧ e.cause ≠ .inputDisconnected := by
  cases e with
  | head f => cases hwf.symm.trans h.2
  | address ea => obtain ⟨-, o, ho, -⟩ := h; exact ⟨mayRaise_address ho, nofun⟩
  | inputDisconnected => exact h.elim
  | outputDisconnected => obtain ⟨a, rfl⟩ := h; exact ⟨rfl, nofun⟩
  | overflow => exact ⟨h.2, nofun⟩

theorem RaiseCondition.policy {i : Instr} {s : State} {e : Trap} (h : RaiseCondition i s e)
    (he : e.cause = .overflow) : s.params.ovfPolicy = .fault := by
  cases e with
  | overflow => exact h.1
  | head f => cases f <;> cases he
  | address | inputDisconnected | outputDisconnected => cases he

/-- Where the execution of an instruction faults, it raises. -/
theorem raise_of_exec_faulted {i : Instr} {s t : State} (hs : s.state = .running) (h : exec i s = .next t)
    (ht : t.state = .faulted) : ∃ e, t = s.raise e ∧ RaiseCondition i s e := by
  obtain hc | hraise := exec_answers h
  · cases i with
    | add | multiply | lessThan | equals => obtain ⟨d, r, -, rfl⟩ := hc; simp [hs] at ht
    | input => obtain ⟨d, -, rfl⟩ := hc; simp at ht
    | output => obtain ⟨x, -, -, -, rfl⟩ := hc; simp [hs] at ht
    | jumpIfTrue | jumpIfFalse => obtain rfl | ⟨y, -, rfl⟩ := hc <;> simp [hs] at ht
    | adjustRelativeBase => obtain ⟨r, rfl⟩ := hc; simp [hs] at ht
    | halt => obtain rfl := hc; simp at ht
  · exact hraise

/-- Settles O39: the fault of the fetch, of the execution, or of the wait. -/
theorem faultCausesByInstruction : Obligations.FaultCausesByInstruction := by
  intro s t h ht
  obtain ⟨hs, e, hf, rfl⟩ | ⟨hs, i, hf, hexec⟩ | ⟨hs, hc⟩ := step_cases h
  · have hcode := fetch_error_code hf
    refine ⟨fun _ _ _ => hcode, fun i _ hi => ?_, fun hw => ?_, fun ho => ?_⟩
    · cases hf.symm.trans hi
    · cases hs.symm.trans hw
    · rw [show e.cause = .overflow from ho] at hcode
      exact absurd hcode (by decide)
  · obtain ⟨e, rfl, he⟩ := raise_of_exec_faulted hs hexec ht
    refine ⟨fun _ _ hi => ?_, fun j _ hj => ?_, fun hw => ?_, he.policy⟩
    · cases hf.symm.trans hi
    · cases hf.symm.trans hj
      exact he.mayRaise (fetch_wf hf)
    · cases hs.symm.trans hw
  · have hrun (hr : s.state = .running) : False := by cases hs.symm.trans hr
    obtain ⟨v, q, -, rfl⟩ | ⟨-, -, rfl⟩ := completeInput_cases hc
    · simp at ht
    · exact ⟨fun _ hr => (hrun hr).elim, fun _ hr => (hrun hr).elim, fun _ => rfl, nofun⟩

/-! ### The jump to itself -/

theorem run_succ {s t : State} (h : step s = .next t) (k : Nat) :
    Host.Core.run core (k + 1) s = Host.Core.run core k t := by
  have hstep : core.step s = .next t := h
  simp only [Host.Core.run, hstep]

/-- Settles O25, by induction on the number of steps: the jump leads back to the state it is taken in. -/
theorem selfJumpRunsForEver : Obligations.SelfJumpRunsForEver := by
  intro k s a b x y hs ha hb hy htaken
  have hstep : step s = .next s := by
    have hself : s.jump (s.value y) = s := by rw [hy]; rfl
    rcases htaken with ⟨hf, hx⟩ | ⟨hf, hx⟩
    · rw [step_exec hs hf, exec_taken_jump ha hb (.inl ⟨rfl, hx⟩), hself]
    · rw [step_exec hs hf, exec_taken_jump ha hb (.inr ⟨rfl, hx⟩), hself]
  induction k with
  | zero => rfl
  | succ k ih => exact (run_succ hstep k).trans ih

end Sys2Proof.Machine
end

section
/-! The host's side (spec 60_exceptions.md section 5): what a host move can change, the table of the moves, and the end of
a run, after which the host is the only agent that moves. -/

namespace Sys2Proof.Machine

/-! ### What a host move can change -/

/-- The state with other queues and host flags: all that the host can write. -/
def State.withHostSide (s : State) (inQ : List Word) (inClosed : Bool) (outQ : List Word) (outDisc : Bool) : State :=
  { s with inQ := inQ, inClosed := inClosed, outQ := outQ, outDisc := outDisc }

/-- A host move changes the host's side alone, and never lengthens the output queue. -/
theorem hostMove_changes_host_side {m : HostMove} {s t : State} {r : Reply} (h : hostMove m (some s) = .done t r) :
    ∃ q c q' d, t = s.withHostSide q c q' d ∧ q'.length ≤ s.outQ.length := by
  cases m with
  | build image seed params => cases h
  | inPush v => obtain ⟨-, rfl, -⟩ := inPush_cases h; exact ⟨_, _, _, _, rfl, le_rfl⟩
  | inClose => obtain ⟨-, rfl, -⟩ := inClose_cases h; exact ⟨_, _, _, _, rfl, le_rfl⟩
  | outPop =>
    obtain ⟨-, ⟨v, q, hq, rfl, -⟩ | ⟨-, -, rfl, -⟩⟩ := outPop_cases h
    · exact ⟨_, _, _, _, rfl, by simp [hq]⟩
    · exact ⟨_, _, _, _, rfl, le_rfl⟩
  | outDisconnect => obtain ⟨-, rfl, -⟩ := outDisconnect_cases h; exact ⟨_, _, _, _, rfl, le_rfl⟩
  | readReg n => obtain ⟨rfl, -⟩ := readReg_cases h; exact ⟨_, _, _, _, rfl, le_rfl⟩

/-- Settles O51: the host's side holds none of the fields named. -/
theorem hostCannotReachEngineState : Obligations.HostCannotReachEngineState := by
  intro m s t r h
  obtain ⟨q, c, q', d, rfl, -⟩ := hostMove_changes_host_side h
  exact ⟨rfl, rfl, rfl, rfl, rfl, rfl, rfl, rfl, rfl, rfl, rfl⟩

/-! ### The table of the moves -/

theorem hostMove_build {image : List Word} (seed : Option Word) {params : Params} (hlen : image.length ≤ maxAddr + 1)
    (hwf : params.wf = true) :
    hostMove (.build image seed params) none = .done (buildEngine image seed params) .none := by
  simp [hostMove, hlen, hwf]

theorem outPop_of_cons {s : State} {v : Word} {q : List Word} (hd : s.outDisc = false) (hq : s.outQ = v :: q) :
    s.outPop = .done { s with outQ := q } (.word v) := by
  simp [State.outPop, hd, hq]

theorem exists_statusRegister (s : State) {n : Nat} (h : n ≤ 5) : ∃ v, s.statusRegister n = some v := by
  interval_cases n <;> exact ⟨_, rfl⟩

/-- Settles O52, move after move: each looks at one flag, and a pop at the queue besides. -/
theorem hostMoveTable : Obligations.HostMoveTable := by
  refine ⟨fun _ seed _ hlen hwf => hostMove_build seed hlen hwf, fun s => ⟨fun v hc => ?_, fun v hc => ?_,
    fun hc => ?_, fun hc => ?_, fun v q hd hq => outPop_of_cons hd hq, fun hd hq hc => ?_, fun hd hq hc => ?_,
    fun hd => ?_, fun hd => ?_, fun hd => ?_, fun n hn => ?_, fun n hn => ?_, fun _ _ _ => rfl⟩⟩
  · simp [hostMove, State.inPush, hc]
  · simp [hostMove, State.inPush, hc]
  · simp [hostMove, State.inClose, hc]
  · simp [hostMove, State.inClose, hc]
  · simp [hostMove, State.outPop, hd, hq, hc]
  · simp [hostMove, State.outPop, hd, hq, hc]
  · simp [hostMove, State.outPop, hd]
  · simp [hostMove, State.outDisconnect, hd]
  · simp [hostMove, State.outDisconnect, hd]
  · obtain ⟨v, hv⟩ := exists_statusRegister s hn
    exact ⟨v, hv, by simp [hostMove, State.readReg, hv]⟩
  · simp [hostMove, State.readReg, statusRegister_eq_none s hn]

/-! ### After the end of a run -/

theorem State.ended_iff (s : State) : s.ended = true ↔ s.state = .halted ∨ s.state = .faulted := by
  simp [State.ended]

theorem moveEvent_host_not_engine (m : HostMove) (s : State) (r : Reply) :
    consumedWords [moveEvent (.host m) s r] = [] ∧ emittedWords [moveEvent (.host m) s r] = [] := by
  cases m with
  | outPop => cases r <;> exact ⟨rfl, rfl⟩
  | build | inPush | inClose | outDisconnect | readReg => exact ⟨rfl, rfl⟩

/-- From an ended state only the host moves, and it changes its own side. -/
theorem Run.from_ended {s t : State} {es : List Event} (h : Run s es t) (hend : s.ended = true) :
    (∃ q c q' d, t = s.withHostSide q c q' d) ∧ consumedWords es = [] ∧ emittedWords es = [] := by
  induction h with
  | nil s => exact ⟨⟨_, _, _, _, rfl⟩, rfl, rfl⟩
  | @cons s t u m r es hm _ ih =>
    cases m with
    | engine => exact absurd (step_of_engineMove hm).1 (step_of_ended (s.ended_iff.1 hend) t)
    | host m =>
      obtain ⟨q, c, q', d, rfl, -⟩ := hostMove_changes_host_side hm
      obtain ⟨⟨p, b, p', e, rfl⟩, hcon, hemit⟩ := ih hend
      obtain ⟨hc, he⟩ := moveEvent_host_not_engine m s r
      refine ⟨⟨p, b, p', e, rfl⟩, (consumedWords_append [_] es).trans ?_, (emittedWords_append [_] es).trans ?_⟩
      · rw [hc, hcon, List.append_nil]
      · rw [he, hemit, List.append_nil]

/-- Settles O41, by induction on the run: the engine has no step, and the host changes its own side alone. -/
theorem endedRunsStayEnded : Obligations.EndedRunsStayEnded := by
  intro s t es h hend
  obtain ⟨⟨q, c, q', d, rfl⟩, hcon, hemit⟩ := h.from_ended hend
  exact ⟨rfl, rfl, rfl, rfl, rfl, rfl, rfl, rfl, rfl, rfl, hcon, hemit⟩

end Sys2Proof.Machine
end

section
/-! The invariant of the engine (spec 10_state.md sections 2 to 5): BUILD establishes it, every step and every host move
keep it, and so it holds of every reachable state. -/

namespace Sys2Proof.Machine

/-! ### BUILD -/

theorem build_cases {image : List Word} {seed : Option Word} {params : Params} {s : State} {r : Reply}
    (h : hostMove (.build image seed params) none = .done s r) :
    image.length ≤ maxAddr + 1 ∧ params.wf = true ∧ s = buildEngine image seed params ∧ r = .none := by
  simp only [hostMove] at h
  split at h
  · cases h; simp_all
  · cases h

theorem buildEngine_mem_wf {image : List Word} (seed : Option Word) (params : Params)
    (h : image.length ≤ maxAddr + 1) : (buildEngine image seed params).mem.wf = true := by
  have hload : (Memory.ofImage 0 image).wf = true := Memory.wf_ofImage image 0 (by omega)
  cases seed with
  | none => exact hload
  | some v => exact Memory.wf_write hload (Nat.zero_le _) v

theorem buildEngine_inv {image : List Word} (seed : Option Word) {params : Params} (hlen : image.length ≤ maxAddr + 1)
    (hwf : params.wf = true) : (buildEngine image seed params).Inv where
  memCanonical := buildEngine_mem_wf seed params hlen
  paramsLegal := hwf
  outWithinCap := fun _ _ => Nat.zero_le _
  targetInRange := Nat.zero_le _
  waitingOnInput := nofun
  closedWhenEnded := rfl
  clearUntilFault := fun _ => ⟨rfl, rfl, rfl, rfl⟩
  recordAfterFault := nofun

/-- Settles O43: the loaded memory is canonical, and everything else is at its reset value. -/
theorem buildMeetsInvariant : Obligations.BuildMeetsInvariant := by
  intro image seed params s r h
  obtain ⟨hlen, hwf, rfl, -⟩ := build_cases h
  exact buildEngine_inv seed hlen hwf

/-- Settles O42: the state after reset is BUILD of the empty image. -/
theorem resetMeetsInvariant : Obligations.ResetMeetsInvariant :=
  buildEngine_inv (image := []) none (params := Params.default) (Nat.zero_le _) rfl

/-! ### Host moves -/

theorem State.Inv.withHostSide {s : State} (h : s.Inv) (q : List Word) (c : Bool) {q' : List Word} (d : Bool)
    (hq : q'.length ≤ s.outQ.length) : (s.withHostSide q c q' d).Inv where
  memCanonical := h.memCanonical
  paramsLegal := h.paramsLegal
  outWithinCap := fun n hn => hq.trans (h.outWithinCap n hn)
  targetInRange := h.targetInRange
  waitingOnInput := h.waitingOnInput
  closedWhenEnded := h.closedWhenEnded
  clearUntilFault := h.clearUntilFault
  recordAfterFault := h.recordAfterFault

/-- Settles O45: of the invariant the host's side holds only the bound on the output queue, which no move lengthens. -/
theorem hostMovesKeepInvariant : Obligations.HostMovesKeepInvariant := by
  intro m s t r hinv h
  obtain ⟨q, c, q', d, rfl, hq⟩ := hostMove_changes_host_side h
  exact hinv.withHostSide q c d hq

/-! ### Steps -/

/-- Fault entry keeps the invariant: it writes the record the invariant asks for. -/
theorem State.Inv.raise {s : State} (h : s.Inv) {e : Trap}
    (haddr : ∀ ea, e = .address ea → inRange (BitVec.ofInt 128 ea).toInt = false) : (s.raise e).Inv where
  memCanonical := h.memCanonical
  paramsLegal := h.paramsLegal
  outWithinCap := h.outWithinCap
  targetInRange := h.targetInRange
  waitingOnInput := nofun
  closedWhenEnded := rfl
  clearUntilFault := fun hne => absurd rfl hne
  recordAfterFault := fun _ => ⟨e.cause_ne_none, rfl, rfl,
    fun hc => by rw [State.raise_faultAddr, Trap.addr_eq_zero hc]; rfl, fun hc => haddr _ (Trap.eq_address_of_cause hc)⟩

theorem State.Inv.beginWait {s : State} (h : s.Inv) (hs : s.state = .running) {a : Operand} {d : Nat}
    (hf : fetch s = .ok (.input a)) (hd : resolveTarget s.rb a = .ok d) : (s.beginWait d).Inv where
  memCanonical := h.memCanonical
  paramsLegal := h.paramsLegal
  outWithinCap := h.outWithinCap
  targetInRange := resolveTarget_le hd
  waitingOnInput := fun _ => ⟨a, hf, hd⟩
  closedWhenEnded := by simpa [State.ended, hs] using h.closedWhenEnded
  clearUntilFault := fun _ => h.clearUntilFault (by simp [hs])
  recordAfterFault := nofun

theorem State.Inv.halt {s : State} (h : s.Inv) (hs : s.state = .running) : s.halt.Inv where
  memCanonical := h.memCanonical
  paramsLegal := h.paramsLegal
  outWithinCap := h.outWithinCap
  targetInRange := h.targetInRange
  waitingOnInput := nofun
  closedWhenEnded := rfl
  clearUntilFault := fun _ => h.clearUntilFault (by simp [hs])
  recordAfterFault := nofun

/-- A live engine that runs on: what may change are memory, `pc`, `rb`, `state` and the queues. -/
def RunsOn (s t : State) : Prop :=
  t.state = .running ∧
    t = { s with mem := t.mem, pc := t.pc, rb := t.rb, state := t.state, inQ := t.inQ, outQ := t.outQ }

/-- Running on keeps the invariant where memory stays canonical and the output queue within `OUT_CAP`. -/
theorem State.Inv.runsOn {s t : State} (h : s.Inv) (hlive : s.state = .running ∨ s.state = .waitingForInput)
    (ht : RunsOn s t) (hmem : t.mem.wf = true)
    (hcap : ∀ n, s.params.outCap = some n → t.outQ.length ≤ n) : t.Inv := by
  have hclosed : s.outClosed = false := by
    rw [h.closedWhenEnded, State.ended]
    rcases hlive with hs | hs <;> simp [hs]
  have hclear := h.clearUntilFault (by rcases hlive with hs | hs <;> simp [hs])
  obtain ⟨hrun, heq⟩ := ht
  rw [heq]
  exact
    { memCanonical := hmem
      paramsLegal := h.paramsLegal
      outWithinCap := hcap
      targetInRange := h.targetInRange
      waitingOnInput := fun hw => by cases hrun.symm.trans hw
      closedWhenEnded := by simp [State.ended, hrun, hclosed]
      clearUntilFault := fun _ => hclear
      recordAfterFault := fun hf => by cases hrun.symm.trans hf }

/-- The effect of every instruction keeps the invariant. -/
theorem Completes.inv {i : Instr} {s t : State} (hc : Completes i s t) (h : s.Inv) (hs : s.state = .running)
    (hf : fetch s = .ok i) : t.Inv := by
  cases i with
  | add | multiply | lessThan | equals =>
    obtain ⟨d, r, hd, rfl⟩ := hc
    exact h.runsOn (.inl hs) ⟨hs, rfl⟩ (Memory.wf_write h.memCanonical (resolveTarget_le hd) r)
      h.outWithinCap
  | input a => obtain ⟨d, hd, rfl⟩ := hc; exact h.beginWait hs hf hd
  | output =>
    obtain ⟨x, -, -, hroom, rfl⟩ := hc
    refine h.runsOn (.inl hs) ⟨hs, rfl⟩ h.memCanonical fun n hn => ?_
    have hlt : ¬ n ≤ s.outQ.length := fun hle => by simp [s.outFull_iff.2 ⟨n, hn, hle⟩] at hroom
    simp only [State.advance_outQ, State.pushOut_outQ, List.length_append, List.length_singleton]
    omega
  | jumpIfTrue | jumpIfFalse =>
    obtain rfl | ⟨y, -, rfl⟩ := hc <;>
      exact h.runsOn (.inl hs) ⟨hs, rfl⟩ h.memCanonical h.outWithinCap
  | adjustRelativeBase =>
    obtain ⟨r, rfl⟩ := hc
    exact h.runsOn (.inl hs) ⟨hs, rfl⟩ h.memCanonical h.outWithinCap
  | halt => obtain rfl := hc; exact h.halt hs

/-- Settles O44: a fault by its record, any other step by the effect of its instruction or of the completing Input, which
stores to the latch. -/
theorem stepKeepsInvariant : Obligations.StepKeepsInvariant := by
  intro s t hinv h
  by_cases ht : t.state = .faulted
  · obtain ⟨e, rfl, haddr⟩ := step_raisedFrom h ht
    refine hinv.raise fun ea he => ?_
    obtain ⟨hout, horigin⟩ := haddr ea he
    rw [horigin.toInt_faultAddr, hout]
  obtain ⟨-, e, -, rfl⟩ | ⟨hs, i, hf, hexec⟩ | ⟨hs, hc⟩ := step_cases h
  · exact absurd rfl ht
  · exact (completes_of_not_faulted hexec ht).inv hinv hs hf
  · obtain ⟨v, q, -, rfl⟩ | ⟨-, -, rfl⟩ := completeInput_cases hc
    · exact hinv.runsOn (.inr hs) ⟨rfl, rfl⟩ (Memory.wf_write hinv.memCanonical hinv.targetInRange v) hinv.outWithinCap
    · exact absurd rfl ht

/-! ### Reachable states -/

theorem systemMove_keeps_inv {m : Move} {s t : State} {r : Reply} (hinv : s.Inv) (h : systemMove m s = .done t r) :
    t.Inv := by
  cases m with
  | engine => exact stepKeepsInvariant s t hinv (step_of_engineMove h).1
  | host m => exact hostMovesKeepInvariant m s t r hinv h

theorem Reachable.inv {s : State} (h : Reachable s) : s.Inv := by
  induction h with
  | build hb => exact buildMeetsInvariant _ _ _ _ _ hb
  | move _ hm ih => exact systemMove_keeps_inv ih hm

/-- Settles O46, by induction on how the state is reached. -/
theorem reachableStatesMeetInvariant : Obligations.ReachableStatesMeetInvariant :=
  fun s h => ⟨h.inv, step_not_refused s⟩

end Sys2Proof.Machine
end

section
/-! Engine and host together (spec 10_state.md section 8, 42_io.md section 1, 60_exceptions.md sections 4 and 5): queue
moves commute with engine steps, the wait and its signal, and the batch run. -/

namespace Sys2Proof.Machine

/-! ### Queue moves and engine steps -/

/-- The state with both queues changed by functions: a push appends to `InQ`, a pop drops the head of `OutQ`. -/
def State.mapQueues (s : State) (f g : List Word → List Word) : State := { s with inQ := f s.inQ, outQ := g s.outQ }

section
variable {s t : State} (f g : List Word → List Word)

theorem commit_mapQueues {r : Except Trap State} (h : s.commit r = .next t) :
    (s.mapQueues f g).commit ((fun u => u.mapQueues f g) <$> r) = .next (t.mapQueues f g) := by
  cases r <;> (obtain rfl := Host.Outcome.next.inj h; rfl)

theorem binary_mapQueues {op : AluOp} {a b c : Operand} (h : s.binary op a b c = .next t) :
    (s.mapQueues f g).binary op a b c = .next (t.mapQueues f g) := by
  have hmap := commit_mapQueues f g h
  simp only [map_bind, map_pure] at hmap
  exact hmap

theorem jumpOn_mapQueues {z : Bool} {a b : Operand} (h : s.jumpOn z a b = .next t) :
    (s.mapQueues f g).jumpOn z a b = .next (t.mapQueues f g) := by
  have hmap := commit_mapQueues f g h
  simp only [map_bind, map_pure, apply_ite (fun u : State => u.mapQueues f g)] at hmap
  exact hmap

theorem execInput_mapQueues {a : Operand} (h : execInput a s = .next t) :
    execInput a (s.mapQueues f g) = .next (t.mapQueues f g) := by
  have hmap := commit_mapQueues f g h
  simp only [map_bind, map_pure] at hmap
  exact hmap

theorem execAdjustRelativeBase_mapQueues {a : Operand} (h : execAdjustRelativeBase a s = .next t) :
    execAdjustRelativeBase a (s.mapQueues f g) = .next (t.mapQueues f g) := by
  have hmap := commit_mapQueues f g h
  simp only [map_bind, map_pure] at hmap
  exact hmap

variable (hpush : ∀ v, g (s.outQ ++ [v]) = g s.outQ ++ [v]) (hlen : (g s.outQ).length ≤ s.outQ.length)
include hpush hlen

/-- Output alone looks at a queue: at the room in `OutQ`, which a shorter queue has too. -/
theorem execOutput_mapQueues {a : Operand} (h : execOutput a s = .next t) :
    execOutput a (s.mapQueues f g) = .next (t.mapQueues f g) := by
  obtain ⟨x, hx, hd, hroom, rfl⟩ | ⟨x, hx, hd, rfl⟩ | ⟨ea, hx, rfl, -⟩ := execOutput_cases h
  · have hroom' : (s.mapQueues f g).outFull = false := by
      refine State.outFull_eq_false fun n hn => hlen.trans_lt (Nat.lt_of_not_le fun hle => ?_)
      simp [s.outFull_iff.2 ⟨n, hn, hle⟩] at hroom
    have hqueue : ((s.pushOut (s.value x)).advance 2).mapQueues f g =
        ((s.mapQueues f g).pushOut (s.value x)).advance 2 := by
      simp [State.mapQueues, State.pushOut, State.advance, hpush]
    rw [hqueue]
    exact execOutput_of_room (s := s.mapQueues f g) hx hd hroom'
  · exact execOutput_of_disconnected (s := s.mapQueues f g) hx hd
  · have hx' : resolve (s.mapQueues f g).rb a = .error (.address ea) := hx
    rw [execOutput, hx']
    rfl

theorem exec_mapQueues {i : Instr} (h : exec i s = .next t) : exec i (s.mapQueues f g) = .next (t.mapQueues f g) := by
  cases i with
  | add a b c => exact binary_mapQueues (op := .add) f g h
  | multiply a b c => exact binary_mapQueues (op := .mul) f g h
  | lessThan a b c => exact binary_mapQueues (op := .lt) f g h
  | equals a b c => exact binary_mapQueues (op := .eq) f g h
  | jumpIfTrue a b => exact jumpOn_mapQueues (z := false) f g h
  | jumpIfFalse a b => exact jumpOn_mapQueues (z := true) f g h
  | input a => exact execInput_mapQueues f g h
  | output a => exact execOutput_mapQueues f g hpush hlen h
  | adjustRelativeBase a => exact execAdjustRelativeBase_mapQueues f g h
  | halt =>
    obtain rfl := Host.Outcome.next.inj h
    rfl

/-- A change of the queues that keeps what the engine takes and adds commutes with its step. -/
theorem step_mapQueues (hpop : ∀ v q, s.inQ = v :: q → f (v :: q) = v :: f q)
    (hclosed : s.inClosed = true → f [] = []) (h : step s = .next t) :
    step (s.mapQueues f g) = .next (t.mapQueues f g) := by
  obtain ⟨hs, e, hf, rfl⟩ | ⟨hs, i, hf, hexec⟩ | ⟨hs, hc⟩ := step_cases h
  · exact step_fetch_error (s := s.mapQueues f g) hs hf
  · exact (step_exec (s := s.mapQueues f g) hs hf).trans (exec_mapQueues f g hpush hlen hexec)
  · refine (step_waiting (s := s.mapQueues f g) hs).trans ?_
    obtain ⟨v, q, hq, rfl⟩ | ⟨hq, hcl, rfl⟩ := completeInput_cases hc
    · have hq' : (s.mapQueues f g).inQ = v :: f q := by rw [← hpop v q hq, ← hq]; rfl
      exact completeInput_of_cons hq'
    · have hq' : (s.mapQueues f g).inQ = [] := by rw [← hclosed hcl, ← hq]; rfl
      exact completeInput_of_closed hq' hcl

end

theorem inPush_of_open {s : State} (v : Word) (h : s.inClosed = false) :
    s.inPush v = .done (s.mapQueues (· ++ [v]) id) .none := by
  simp [State.inPush, h, State.mapQueues]

theorem outPop_eq_mapQueues {s : State} {v : Word} {q : List Word} (hd : s.outDisc = false) (hq : s.outQ = v :: q) :
    s.outPop = .done (s.mapQueues id List.tail) (.word v) := by
  rw [outPop_of_cons hd hq, State.mapQueues, hq]
  rfl

/-- A step takes nothing from `OutQ`. -/
theorem step_outQ_cons {s t : State} {v : Word} {q : List Word} (h : step s = .next t) (hq : s.outQ = v :: q) :
    ∃ q', t.outQ = v :: q' := by
  obtain hkeep | ⟨-, a, x, -, -, hpush⟩ := step_outQ h
  · exact ⟨q, hkeep.trans hq⟩
  · exact ⟨q ++ [s.value x], by rw [hpush, hq]; rfl⟩

/-- Settles O48: the push and the pop are changes of the queues that `step_mapQueues` allows. -/
theorem queueMovesCommuteWithEngineSteps : Obligations.QueueMovesCommuteWithEngineSteps := by
  refine ⟨fun s s' t v h hpush => ?push, fun s s' t v h hpop => ?pop⟩
  case push =>
    obtain ⟨hopen, rfl, -⟩ := inPush_cases hpush
    refine ⟨_, step_mapQueues (· ++ [v]) id (fun _ => rfl) le_rfl (fun _ _ _ => rfl) (fun hcl => ?_) h,
      inPush_of_open v ((step_keeps_host_fields h).1.trans hopen)⟩
    cases hopen.symm.trans hcl
  case pop =>
    obtain ⟨hd, ⟨w, q, hq, rfl, hw⟩ | ⟨-, -, -, hw⟩⟩ := outPop_cases hpop
    · obtain rfl := Reply.word.inj hw
      obtain ⟨q', hq'⟩ := step_outQ_cons h hq
      have hstep := step_mapQueues id List.tail (by simp [hq]) (by simp) (fun _ _ _ => rfl) (fun _ => rfl) h
      have ht : s.mapQueues id List.tail = { s with outQ := q } := by rw [State.mapQueues, hq]; rfl
      exact ⟨_, ht ▸ hstep, outPop_eq_mapQueues ((step_keeps_host_fields h).2.1.trans hd) hq'⟩
    · cases hw

/-! ### The wait -/

/-- Settles O49: the push makes the second step of Input a delivery to the latch, the close makes it a fault. -/
theorem waitEndsOneStepAfterHostAnswers : Obligations.WaitEndsOneStepAfterHostAnswers := by
  intro s hinv hs hq hc
  obtain ⟨a, hf, -⟩ := hinv.waitingOnInput hs
  refine ⟨fun v => ?push, ?close⟩
  case push =>
    have hq' : (s.mapQueues (· ++ [v]) id).inQ = [v] := by simp [State.mapQueues, hq]
    have hstep := (step_waiting (s := s.mapQueues (· ++ [v]) id) hs).trans (completeInput_of_cons hq')
    exact ⟨_, _, inPush_of_open v hc, hstep, rfl,
      Memory.read_write_self ((Memory.wf_iff _).1 hinv.memCanonical).1 _ _, rfl, (toInt_pc_advance hf rfl).1⟩
  case close =>
    have hclose : s.inClose = .done { s with inClosed := true } .none := by simp [State.inClose, hc]
    have hstep := (step_waiting (s := { s with inClosed := true }) hs).trans (completeInput_of_closed hq rfl)
    exact ⟨_, _, hclose, hstep, rfl, rfl, rfl, State.wordAtPc_of_nonneg (fetch_bounds hf).1⟩

theorem State.waiting_iff (s : State) : s.waiting = true ↔ s.state = .waitingForInput := by simp [State.waiting]

theorem State.waiting_eq_false {s : State} (h : s.state ≠ .waitingForInput) : s.waiting = false := by
  simp [State.waiting, h]

theorem waiting_rises_at_input {s t : State} (h : step s = .next t) (hs : s.waiting = false) (ht : t.waiting = true) :
    s.state = .running ∧ ∃ a, fetch s = .ok (.input a) ∧ resolveTarget s.rb a = .ok t.inTarget := by
  rw [State.waiting_iff] at ht
  obtain ⟨-, e, -, rfl⟩ | ⟨hrun, i, hf, hexec⟩ | ⟨hw, -⟩ := step_cases h
  · cases ht
  · obtain hfault | ⟨-, a, rfl⟩ | ⟨hhalt, -⟩ | ⟨hrun', -⟩ := exec_transition hrun hexec
    · cases hfault.symm.trans ht
    · obtain ⟨d, hd, rfl⟩ := completes_of_not_faulted hexec (by simp [ht])
      exact ⟨hrun, a, hf, hd⟩
    · cases hhalt.symm.trans ht
    · cases hrun'.symm.trans ht
  · cases (s.waiting_iff.2 hw).symm.trans hs

/-- Settles O50: the host does not reach `state`, and the one engine step out of the wait consumes or faults. -/
theorem waitingSpansExactlyTheInput : Obligations.WaitingSpansExactlyTheInput := by
  refine ⟨fun s t h hs ht => waiting_rises_at_input h hs ht, fun m s t r hs h => ?_⟩
  cases m with
  | host m =>
    obtain ⟨q, c, q', d, rfl, -⟩ := hostMove_changes_host_side h
    exact .inl ⟨nofun, hs⟩
  | engine =>
    have hc : completeInput s = .next t := step_waiting (s.waiting_iff.1 hs) ▸ (step_of_engineMove h).1
    obtain ⟨v, q, hq, rfl⟩ | ⟨hq, -, rfl⟩ := completeInput_cases hc
    · exact .inr ⟨rfl, rfl, rfl, .inl ⟨rfl, v, hq⟩⟩
    · exact .inr ⟨rfl, rfl, rfl, .inr ⟨rfl, rfl, hq⟩⟩

/-! ### The batch run -/

theorem Reachable.run {s t : State} {es : List Event} (hs : Reachable s) (h : Run s es t) : Reachable t := by
  induction h with
  | nil => exact hs
  | cons hm _ ih => exact ih (.move hs hm)

theorem runMoves_cons {m : Move} {ms : List Move} {s u : State} {rs : List Reply}
    (h : runMoves (m :: ms) s = some (u, rs)) :
    ∃ t r rs', systemMove m s = .done t r ∧ runMoves ms t = some (u, rs') := by
  rw [runMoves] at h
  split at h
  · next t r hm =>
    split at h
    · next v rs' hrun => cases h; exact ⟨t, r, rs', hm, hrun⟩
    · cases h
  · cases h
  · cases h

theorem runMoves_inClose {s t : State} {rs : List Reply} (h : runMoves [.host .inClose] s = some (t, rs)) :
    Run s [.silent] t ∧ t.inClosed = true := by
  obtain ⟨u, r, rs', hm, hnil⟩ := runMoves_cons h
  cases hnil
  obtain ⟨-, rfl, -⟩ := inClose_cases hm
  exact ⟨.cons hm (.nil _), rfl⟩

/-- The pre-fill pushes the inputs in order and closes the input (R245). -/
theorem prefill_run {inputs : List Word} {s t : State} {rs : List Reply}
    (h : runMoves (prefillMoves inputs) s = some (t, rs)) :
    Run s (inputs.map .pushed ++ [.silent]) t ∧ t.inClosed = true := by
  induction inputs generalizing s rs with
  | nil => exact runMoves_inClose h
  | cons v vs ih =>
    obtain ⟨u, r, rs', hm, hrest⟩ := runMoves_cons h
    obtain ⟨hrun, hclosed⟩ := ih hrest
    exact ⟨.cons hm hrun, hclosed⟩

theorem prefill_words (inputs : List Word) : pushedWords (inputs.map .pushed ++ [.silent]) = inputs ∧
    poppedWords (inputs.map .pushed ++ [.silent]) = [] := by
  induction inputs with
  | nil => exact ⟨rfl, rfl⟩
  | cons v vs ih =>
    obtain ⟨hpush, hpop⟩ := ih
    exact ⟨congrArg (v :: ·) hpush, hpop⟩

theorem engineEvent_words (s : State) : pushedWords [engineEvent s] = [] ∧ poppedWords [engineEvent s] = [] := by
  cases he : engineEvent s with
  | pushed v => exact absurd he (engineEvent_not_host s v).1
  | popped v => exact absurd he (engineEvent_not_host s v).2
  | consumed | emitted | silent => exact ⟨rfl, rfl⟩

/-- One round of the loop: an engine step, else a pop, else the end of the stream. -/
theorem batchLoop_succ {n : Nat} {s : State} {out : List Word} {res : State × List Word}
    (h : batchLoop (n + 1) s out = some res) :
    (∃ u r, engineMove s = .done u r ∧ batchLoop n u out = some res) ∨
      (∃ u v, s.outPop = .done u (.word v) ∧ batchLoop n u (out ++ [v]) = some res) ∨
      ∃ u, s.outPop = .done u .endOfStream ∧ res = (u, out) := by
  rw [batchLoop] at h
  split at h
  · next u r hm => exact .inl ⟨u, r, hm, h⟩
  all_goals
    split at h
    · next u v hpop => exact .inr (.inl ⟨u, v, hpop, h⟩)
    · next u hpop => exact .inr (.inr ⟨u, hpop, (Option.some.inj h).symm⟩)
    all_goals cases h

/-- The loop is a run that pushes nothing and pops the words returned, to a drained queue whose engine has closed it. -/
theorem batchLoop_run {n : Nat} {s t : State} {out out' : List Word} (h : batchLoop n s out = some (t, out')) :
    ∃ es, Run s es t ∧ pushedWords es = [] ∧ out' = out ++ poppedWords es ∧ t.outQ = [] ∧ t.outClosed = true ∧
      t.inClosed = s.inClosed := by
  induction n generalizing s out with
  | zero => cases h
  | succ n ih =>
    obtain ⟨u, r, hm, hloop⟩ | ⟨u, v, hpop, hloop⟩ | ⟨u, hpop, hres⟩ := batchLoop_succ h
    · obtain ⟨es, hrun, hpush, hout, hq, hclosed, hin⟩ := ih hloop
      obtain ⟨hpush', hpop'⟩ := engineEvent_words s
      refine ⟨engineEvent s :: es, .cons (m := .engine) hm hrun, (pushedWords_append [_] es).trans ?_, ?_, hq, hclosed,
        hin.trans (step_keeps_host_fields (step_of_engineMove hm).1).1⟩
      · rw [hpush', hpush, List.append_nil]
      · have hwords : poppedWords (engineEvent s :: es) = poppedWords [engineEvent s] ++ poppedWords es :=
          poppedWords_append [_] es
        rw [hwords, hpop', List.nil_append, hout]
    · obtain ⟨es, hrun, hpush, hout, hq, hclosed, hin⟩ := ih hloop
      obtain ⟨-, ⟨w, q, -, rfl, -⟩ | ⟨-, -, -, hw⟩⟩ := outPop_cases hpop
      · exact ⟨_, .cons (m := .host .outPop) hpop hrun, hpush, by rw [hout, List.append_assoc]; rfl, hq, hclosed, hin⟩
      · cases hw
    · cases hres
      obtain ⟨-, ⟨w, q, -, -, hw⟩ | ⟨hq, hclosed, rfl, -⟩⟩ := outPop_cases hpop
      · cases hw
      · exact ⟨[], .nil _, rfl, (List.append_nil _).symm, hq, hclosed, rfl⟩

/-- What a batch run is: BUILD, the pre-fill and the loop. -/
theorem batchRun_cases {fuel : Nat} {image : List Word} {seed : Option Word} {params : Params} {inputs out : List Word}
    {s : State} (h : batchRun fuel image seed params inputs = some (s, out)) :
    ∃ t rs, hostMove (.build image seed params) none = .done (buildEngine image seed params) .none ∧
      runMoves (prefillMoves inputs) (buildEngine image seed params) = some (t, rs) ∧
      batchLoop fuel t [] = some (s, out) := by
  unfold batchRun at h
  split at h
  · next b r hb =>
    obtain ⟨-, -, rfl, rfl⟩ := build_cases hb
    split at h
    · next t rs hfill => exact ⟨t, rs, hb, hfill, h⟩
    · cases h
  · cases h
  · cases h

/-- Settles O57: the invariant makes a closed output an ended run, and by `Run.queuesConserved` the popped words of a run
between empty output queues are the emitted ones. -/
theorem batchRunReturnsAnEndedDrainedEngine : Obligations.BatchRunReturnsAnEndedDrainedEngine := by
  intro fuel image seed params inputs out s h
  obtain ⟨t, rs, hbuild, hfill, hloop⟩ := batchRun_cases h
  obtain ⟨hrun, hclosed⟩ := prefill_run hfill
  obtain ⟨hpushed, hpopped⟩ := prefill_words inputs
  obtain ⟨es, hrun', hpush, hout, hq, houtClosed, hin⟩ := batchLoop_run hloop
  have hall := hrun.append hrun'
  have hreach : Reachable s := (Reachable.build hbuild).run hall
  have hpop : out = poppedWords (inputs.map .pushed ++ [.silent] ++ es) := by
    rw [poppedWords_append, hpopped]
    exact hout
  have hemit := hall.queuesConserved.2
  rw [hq, List.append_nil] at hemit
  refine ⟨hreach, hreach.inv.closedWhenEnded ▸ houtClosed, hq, hin.trans hclosed, _, hall, ?_, hpop,
    hpop.trans hemit.symm⟩
  rw [pushedWords_append, hpushed, hpush, List.append_nil]

end Sys2Proof.Machine
end

section
/-! Memory as data and the engine BUILD makes (spec 20_memory.md section 1, 70_reset_and_hazards.md sections 1 and 2). -/

namespace Sys2Proof.Machine

/-! ### Writes over an image -/

/-- The writes of a list, in order. -/
def Memory.writeEach (m : Memory) (writes : List (Nat × Word)) : Memory :=
  writes.foldl (fun m w => m.write w.1 w.2) m

theorem Memory.wf_writeEach {m : Memory} {writes : List (Nat × Word)} (h : m.wf = true)
    (hw : ∀ w ∈ writes, w.1 ≤ maxAddr) : (m.writeEach writes).wf = true := by
  induction writes generalizing m with
  | nil => exact h
  | cons w ws ih =>
    obtain ⟨hle, hws⟩ := List.forall_mem_cons.1 hw
    exact ih (Memory.wf_write h hle w.2) hws

/-- The last write to a cell decides, else what stood there. -/
theorem Memory.read_writeEach {m : Memory} (hs : m.sorted = true) (writes : List (Nat × Word)) (a : Nat) :
    (m.writeEach writes).read a = ((writes.reverse.find? (fun w => w.1 = a)).map Prod.snd).getD (m.read a) := by
  induction writes generalizing m with
  | nil => rfl
  | cons w ws ih =>
    rw [Memory.writeEach, List.foldl_cons, ← Memory.writeEach, ih (Memory.sorted_write hs w.1 w.2), List.reverse_cons,
      List.find?_append]
    cases ws.reverse.find? (fun w => w.1 = a) with
    | some v => rfl
    | none =>
      by_cases hw : w.1 = a
      · subst hw
        simp [Memory.read_write_self hs]
      · simp [hw, Memory.read_write_ne m w.1 a w.2 (Ne.symm hw)]

theorem getD_eq_ite (image : List Word) (a : Nat) :
    image.getD a 0#64 = if a < image.length then image.getD a 0#64 else 0#64 := by
  split
  · rfl
  · next h => exact List.getD_eq_default _ _ (Nat.le_of_not_lt h)

/-- The loaded image, from address 0. -/
theorem Memory.read_ofImage_zero (image : List Word) (a : Nat) :
    (Memory.ofImage 0 image).read a = if a < image.length then image.getD a 0#64 else 0#64 := by
  rw [Memory.read_ofImage, if_pos (Nat.zero_le a), Nat.sub_zero]
  exact getD_eq_ite image a

/-- Settles O59: the image is canonical and reads as loaded, and each write keeps the form and is read back. -/
theorem cellsReadLastWriteElseImageElseZero : Obligations.CellsReadLastWriteElseImageElseZero := by
  refine ⟨fun image writes hlen hw => ?_, fun m a v h ha => Memory.wf_write h ha v⟩
  have hload : (Memory.ofImage 0 image).wf = true := Memory.wf_ofImage image 0 (by omega)
  refine ⟨Memory.wf_writeEach hload hw, fun a => ?_⟩
  have hread := Memory.read_writeEach ((Memory.wf_iff _).1 hload).1 writes a
  rw [Memory.read_ofImage_zero] at hread
  refine hread.trans ?_
  cases writes.reverse.find? (fun w => w.1 = a) <;> rfl

/-! ### Memories that read alike -/

theorem Memory.wf_cons {b : Nat} {w : Word} {m : Memory} (h : Memory.wf ((b, w) :: m) = true) :
    Memory.startsAbove b m ∧ b ≤ maxAddr ∧ w ≠ 0#64 ∧ m.wf = true := by
  obtain ⟨hs, hall⟩ := (Memory.wf_iff _).1 h
  obtain ⟨hstart, hs'⟩ := (Memory.sorted_cons b w m).1 hs
  obtain ⟨⟨hb, hw⟩, hall'⟩ := List.forall_mem_cons.1 hall
  exact ⟨hstart, hb, hw, (Memory.wf_iff m).2 ⟨hs', hall'⟩⟩

/-- The first cell listed does not read 0, so a memory that reads alike lists something at or below it. -/
theorem Memory.not_startsAbove_of_read_eq {m m' : Memory} {b : Nat} {w : Word} (h : Memory.wf ((b, w) :: m) = true)
    (h' : m'.wf = true) (hread : ∀ a, a ≤ maxAddr → Memory.read ((b, w) :: m) a = m'.read a) :
    ¬ Memory.startsAbove b m' := by
  intro hstart
  obtain ⟨-, hb, hw, -⟩ := Memory.wf_cons h
  have hb0 : m'.read b = 0#64 := Memory.read_below ((Memory.wf_iff m').1 h').1 hstart b le_rfl
  rw [← hread b hb, Memory.read_cons, if_pos rfl] at hb0
  exact hw hb0

/-- Without their common first address, memories that read alike read alike. -/
theorem Memory.read_eq_of_cons {m m' : Memory} {b : Nat} {w w' : Word} (h : Memory.wf ((b, w) :: m) = true)
    (h' : Memory.wf ((b, w') :: m') = true)
    (hread : ∀ a, a ≤ maxAddr → Memory.read ((b, w) :: m) a = Memory.read ((b, w') :: m') a) :
    ∀ a, a ≤ maxAddr → m.read a = m'.read a := by
  intro a ha
  obtain ⟨hstart, -, -, hm⟩ := Memory.wf_cons h
  obtain ⟨hstart', -, -, hm'⟩ := Memory.wf_cons h'
  by_cases hab : a ≤ b
  · rw [Memory.read_below ((Memory.wf_iff m).1 hm).1 hstart a hab,
      Memory.read_below ((Memory.wf_iff m').1 hm').1 hstart' a hab]
  · have hne : a ≠ b := by omega
    simpa [Memory.read_cons, hne] using hread a ha

/-- Settles O60, by induction on the list: the first addresses agree, then the first words, then the rests. -/
theorem canonicalMemoriesThatReadAlikeAreEqual : Obligations.CanonicalMemoriesThatReadAlikeAreEqual := by
  intro m
  induction m with
  | nil =>
    intro m' _ h' hread
    cases m' with
    | nil => rfl
    | cons c m' => exact absurd trivial (Memory.not_startsAbove_of_read_eq h' rfl fun a ha => (hread a ha).symm)
  | cons c m ih =>
    intro m' h h' hread
    cases m' with
    | nil => exact absurd trivial (Memory.not_startsAbove_of_read_eq h rfl hread)
    | cons c' m' =>
      obtain ⟨b, w⟩ := c
      obtain ⟨b', w'⟩ := c'
      have hle : ¬ b < b' := Memory.not_startsAbove_of_read_eq h h' hread
      have hge : ¬ b' < b := Memory.not_startsAbove_of_read_eq h' h fun a ha => (hread a ha).symm
      obtain rfl : b = b' := by omega
      obtain ⟨-, hb, -, hm⟩ := Memory.wf_cons h
      obtain ⟨-, -, -, hm'⟩ := Memory.wf_cons h'
      have hw : w = w' := by simpa [Memory.read_cons] using hread b hb
      rw [hw, ih m' hm hm' (Memory.read_eq_of_cons h h' hread)]

/-! ### BUILD -/

theorem read_buildEngine_seed_zero {image : List Word} (v : Word) (params : Params)
    (hlen : image.length ≤ maxAddr + 1) : (buildEngine image (some v) params).mem.read 0 = v :=
  Memory.read_write_self ((Memory.wf_iff _).1 (Memory.wf_ofImage image 0 (by omega))).1 0 v

theorem read_buildEngine_seed_succ (image : List Word) (v : Word) (params : Params) (i : Nat) :
    (buildEngine image (some v) params).mem.read (i + 1) =
      if i + 1 < image.length then image.getD (i + 1) 0#64 else 0#64 :=
  (Memory.read_write_ne _ 0 (i + 1) v (Nat.succ_ne_zero i)).trans (Memory.read_ofImage_zero image (i + 1))

/-- Settles O54: the memory is the loaded image, with the seed written over address 0, and every other field is written
out in BUILD. -/
theorem buildLoadsImageAndClearsState : Obligations.BuildLoadsImageAndClearsState := by
  intro image seed params hlen hwf
  refine ⟨_, hostMove_build seed hlen hwf, fun i => ?_, rfl, rfl, rfl, rfl, rfl, rfl, rfl, rfl, rfl, rfl, rfl, rfl, rfl,
    rfl⟩
  cases seed with
  | none => cases i <;> exact Memory.read_ofImage_zero image _
  | some v =>
    cases i with
    | zero => exact read_buildEngine_seed_zero v params hlen
    | succ i => exact read_buildEngine_seed_succ image v params i

theorem step_build_of_head_error {image : List Word} (params : Params) {f : HeadFault}
    (h : decodeHead (image.getD 0 0#64) = .error f) :
    step (buildEngine image none params) = .next ((buildEngine image none params).raise (.head f)) := by
  have hword : (buildEngine image none params).mem.read 0 = image.getD 0 0#64 := Memory.read_ofImage image 0 0
  exact step_of_head_error rfl le_rfl (hword.symm ▸ h)

/-- Settles O55: word 0 of the image is the word at `pc`, and the empty image's is 0, which is no opcode. -/
theorem illegalFirstWordFaultsAtFirstStep : Obligations.IllegalFirstWordFaultsAtFirstStep :=
  ⟨fun _ params _ _ h => step_build_of_head_error params h,
    fun params => ⟨_, step_build_of_head_error (image := []) params (f := .invalidOpcode) (by decide), rfl, rfl, rfl, rfl⟩⟩

/-- Settles O56: reset is BUILD of the empty image, whose memory lists no cell. -/
theorem resetValues : Obligations.ResetValues :=
  ⟨fun _ => rfl, rfl, rfl, rfl, rfl, rfl, rfl, rfl, rfl, rfl, rfl, rfl, rfl, rfl, rfl,
    fun _ hn => statusRegister_buildEngine [] none Params.default hn, hostMove_build none (Nat.zero_le _) rfl⟩

end Sys2Proof.Machine
end
